-- ==== Sys2Proof/Word.lean ====
section
/-! DEFINITION. The value types of the core (spec 00_scope.md rules R4, R8, R9). Everything is unsigned. -/

namespace Sys2Proof

/-- A raw 16-bit word of the program image or of a memory location (R8, R41). -/
abbrev Word := BitVec 16

/-- A Cell, 0..32767: what a register, a stack entry or an instruction's result holds (R11). -/
abbrev Cell := BitVec 15

/-- One character of the channels, or one byte of the program image (R25, R45). -/
abbrev Byte := BitVec 8

/-- A register index 0..7 (R12). -/
abbrev Reg := Fin 8

end Sys2Proof
end

