-- ==== Sys2Proof/Config.lean ====
section
/-! DEFINITION. The fixed parameters (spec 00_scope.md R4) and the configuration inputs (R5, 10_state.md R22).
The spec leaves no value undefined, so there is no free value here. -/

namespace Sys2Proof

/-- `MEM_CELLS`: memory has the locations 0..32767 (R4, R40). -/
abbrev memCells : Nat := 32768

/-- `MODULUS` of the arithmetic, 2^15 (R4, R103). -/
abbrev modulus : Nat := 32768

/-- `REG_BASE`: the operand word that names R0 (R4). -/
abbrev regBase : Nat := 32768

/-- `INVALID_BASE`: the smallest Invalid operand word (R4). -/
abbrev invalidBase : Nat := 32776

/-- What `in` does at end of input (R22, R123). -/
inductive EofPolicy
  | fault
  | halt
  deriving DecidableEq, Repr

/-- What `rmem` does with a word 32768..65535 (R22, R110). -/
inductive WidePolicy
  | fault
  | reduce
  deriving DecidableEq, Repr

/-- The configuration inputs: set by the host before start, constant over a run, seen by no instruction (R22). -/
structure Config where
  /-- Unknown opcodes are skipped by one word instead of faulting (R68). -/
  lenient   : Bool
  eofPolicy : EofPolicy
  rmemWide  : WidePolicy
  deriving DecidableEq, Repr

/-- The defaults of R5 and R22: strict, `Fault`, `Fault`. -/
def Config.default : Config := { lenient := false, eofPolicy := .fault, rmemWide := .fault }

end Sys2Proof
end

