-- ==== Sys2Proof/Syntax.lean ====
section
/-! DEFINITION. The instruction set: one constructor per row of the opcode table (spec 30_encoding.md R67), its
operand words classified as R63 classifies them. -/

namespace Sys2Proof

/-- An operand word by its class (R63). An Invalid word is kept, because the instruction that decodes it reports it
(R132); WellFormed says which words it may hold. -/
inductive Operand
  /-- 0..32767, used as it is. -/
  | literal (c : Cell)
  /-- 32768..32775, names a register. -/
  | register (r : Reg)
  /-- 32776..65535. -/
  | invalid (w : Word)
  deriving DecidableEq, Repr

/-- The 22 instructions, operands in the order of R66. (`inp` is the table's `in`, which is a word of Lean's own.) -/
inductive Instr
  | halt
  | set (dst src : Operand)
  | push (src : Operand)
  | pop (dst : Operand)
  | eq (dst a b : Operand)
  | gt (dst a b : Operand)
  | jmp (target : Operand)
  | jt (cond target : Operand)
  | jf (cond target : Operand)
  | add (dst a b : Operand)
  | mult (dst a b : Operand)
  | mod (dst a b : Operand)
  | and (dst a b : Operand)
  | or (dst a b : Operand)
  | not (dst a : Operand)
  | rmem (dst addr : Operand)
  | wmem (addr src : Operand)
  | call (target : Operand)
  | ret
  | out (val : Operand)
  | inp (dst : Operand)
  | noop
  deriving DecidableEq, Repr

/-- The two roles an operand word can have (R66). -/
inductive Role
  /-- A destination, decoded with `regidx` (R65). -/
  | dst
  /-- A value, decoded with `resolve` (R64). -/
  | value
  deriving DecidableEq, Repr

/-- The operands of an instruction in the order A, B, C, each with its role (R66). -/
def Instr.operands : Instr → List (Role × Operand)
  | .halt | .ret | .noop => []
  | .push a | .jmp a | .call a | .out a => [(.value, a)]
  | .pop a | .inp a => [(.dst, a)]
  | .set a b | .not a b | .rmem a b => [(.dst, a), (.value, b)]
  | .jt a b | .jf a b | .wmem a b => [(.value, a), (.value, b)]
  | .eq a b c | .gt a b c | .add a b c | .mult a b c | .mod a b c | .and a b c | .or a b c =>
    [(.dst, a), (.value, b), (.value, c)]

/-- The length in words: the opcode word and the operand words (R60, R70). -/
def Instr.length (i : Instr) : Nat := 1 + i.operands.length

end Sys2Proof
end

