-- ==== Sys2Proof/WellFormed.lean ====
section
/-! DEFINITION. When an instruction is well formed: every operand valid for its role (spec 30_encoding.md R66,
60_exceptions.md R132), and, weaker, every operand standing under the class R63 gives its word. -/

namespace Sys2Proof

/-- R63: a word held as Invalid is 32776..65535. The decoder yields only such operands. -/
def Operand.classified : Operand → Bool
  | .literal _ => true
  | .register _ => true
  | .invalid w => decide (invalidBase ≤ w.toNat)

/-- R64, R65: a destination is a register reference; a value is a literal or a register reference. -/
def Role.accepts : Role → Operand → Bool
  | .dst, .literal _ => false
  | .dst, .register _ => true
  | .dst, .invalid _ => false
  | .value, .literal _ => true
  | .value, .register _ => true
  | .value, .invalid _ => false

/-- Every operand stands under its own class: what the decoder yields and the encoder round-trips. -/
def Instr.classified (i : Instr) : Bool := i.operands.all fun p => p.2.classified

/-- Every operand is valid for its role, so the instruction raises no InvalidOperand (R132). -/
def Instr.wellFormed (i : Instr) : Bool := i.operands.all fun p => p.1.accepts p.2

/-- The first operand, in the order A, B, C, that is not valid for its role: the one R132 reports. -/
def Instr.firstInvalid (i : Instr) : Option Operand :=
  (i.operands.find? fun p => !p.1.accepts p.2).map Prod.snd

end Sys2Proof
end

