-- ==== Sys2Proof/Decode.lean ====
section
/-! DEFINITION. Operand words, the opcode table as a list of rows, the decoder (total on any words, rejecting by
name), the encoder, and the byte order of the program image (spec 30_encoding.md R60 to R70, 20_memory.md R45). -/

namespace Sys2Proof

/-- `zext_16(c)`: a Cell used as a Word, bit 15 = 0 (R8). -/
def Cell.toWord (c : Cell) : Word := c.setWidth 16

/-- The class of an operand word (R63). -/
def Operand.ofWord (w : Word) : Operand :=
  if w.toNat < regBase then .literal (w.setWidth 15)
  else if w.toNat < invalidBase then .register (Fin.ofNat 8 (w.toNat - regBase))
  else .invalid w

/-- The word an operand is encoded as (R13, R63). -/
def Operand.word : Operand → Word
  | .literal c => c.toWord
  | .register r => BitVec.ofNat 16 (regBase + r.val)
  | .invalid w => w

/-- Why the decoder yields no instruction. -/
inductive DecodeError
  /-- There is no opcode word: step 1 of R71. -/
  | noOpcodeWord
  /-- The opcode word is 22..65535 (R68): step 2 of R71. -/
  | unknownOpcode (op : Word)
  /-- An operand word is missing, it would lie past the end (R73): step 4 of R71. -/
  | noOperandWord
  deriving DecidableEq, Repr

/-- The four formats F0 to F3 (R62): how many operand words an opcode takes and what they make. -/
inductive Format
  | f0 (i : Instr)
  | f1 (mk : Operand → Instr)
  | f2 (mk : Operand → Operand → Instr)
  | f3 (mk : Operand → Operand → Operand → Instr)

/-- The opcode map of R67: row k is opcode k, 0 to 21. -/
def opcodeTable : List Format :=
  [.f0 .halt, .f2 .set, .f1 .push, .f1 .pop, .f3 .eq, .f3 .gt, .f1 .jmp, .f2 .jt, .f2 .jf, .f3 .add, .f3 .mult]
  ++ [.f3 .mod, .f3 .and, .f3 .or, .f2 .not, .f2 .rmem, .f2 .wmem, .f1 .call, .f0 .ret, .f1 .out, .f1 .inp, .f0 .noop]

/-- Takes the operand words a format needs from the words that follow the opcode word; what is left comes back. -/
def Format.take : Format → List Word → Except DecodeError (Instr × List Word)
  | .f0 i, ws => .ok (i, ws)
  | .f1 mk, a :: ws => .ok (mk (.ofWord a), ws)
  | .f2 mk, a :: b :: ws => .ok (mk (.ofWord a) (.ofWord b), ws)
  | .f3 mk, a :: b :: c :: ws => .ok (mk (.ofWord a) (.ofWord b) (.ofWord c), ws)
  | .f1 _, [] => .error .noOperandWord
  | .f2 _, [] => .error .noOperandWord
  | .f2 _, [_] => .error .noOperandWord
  | .f3 _, [] => .error .noOperandWord
  | .f3 _, [_] => .error .noOperandWord
  | .f3 _, [_, _] => .error .noOperandWord

/-- The decoder: the instruction at the front of a list of words, and the words after it (R60, R61, R70). All 16
bits of the opcode word are compared. -/
def decode : List Word → Except DecodeError (Instr × List Word)
  | [] => .error .noOpcodeWord
  | op :: ws =>
    match opcodeTable[op.toNat]? with
    | none => .error (.unknownOpcode op)
    | some f => f.take ws

/-- The encoder (R62, R67). -/
def encode : Instr → List Word
  | .halt => [0]
  | .set a b => [1, a.word, b.word]
  | .push a => [2, a.word]
  | .pop a => [3, a.word]
  | .eq a b c => [4, a.word, b.word, c.word]
  | .gt a b c => [5, a.word, b.word, c.word]
  | .jmp a => [6, a.word]
  | .jt a b => [7, a.word, b.word]
  | .jf a b => [8, a.word, b.word]
  | .add a b c => [9, a.word, b.word, c.word]
  | .mult a b c => [10, a.word, b.word, c.word]
  | .mod a b c => [11, a.word, b.word, c.word]
  | .and a b c => [12, a.word, b.word, c.word]
  | .or a b c => [13, a.word, b.word, c.word]
  | .not a b => [14, a.word, b.word]
  | .rmem a b => [15, a.word, b.word]
  | .wmem a b => [16, a.word, b.word]
  | .call a => [17, a.word]
  | .ret => [18]
  | .out a => [19, a.word]
  | .inp a => [20, a.word]
  | .noop => [21]

/-- The words of a byte stream, the low byte first (R45); none for a stream of odd length (R47). -/
def wordsOfBytes : List Byte → Option (List Word)
  | [] => some []
  | [_] => none
  | lo :: hi :: bs => (wordsOfBytes bs).map fun ws => BitVec.ofNat 16 (lo.toNat + 256 * hi.toNat) :: ws

/-- The byte stream of a list of words, the low byte first (R45). -/
def bytesOfWords : List Word → List Byte
  | [] => []
  | w :: ws => BitVec.ofNat 8 (w.toNat % 256) :: BitVec.ofNat 8 (w.toNat / 256) :: bytesOfWords ws

/-- The four words, the longest instruction, that a table word of `nbits` bits stands for: bit 0 is the least
significant bit of the first word, and every bit from `nbits` up is 0. -/
def tableWords (nbits w : Nat) : List Word :=
  let v := w % 2 ^ nbits
  [BitVec.ofNat 16 v, BitVec.ofNat 16 (v / 2 ^ 16), BitVec.ofNat 16 (v / 2 ^ 32), BitVec.ofNat 16 (v / 2 ^ 48)]

/-- The instruction the decoder reads from a table word. -/
def decodeTableWord (nbits w : Nat) : Option Instr :=
  match decode (tableWords nbits w) with
  | .ok (i, _) => some i
  | .error _ => none

end Sys2Proof
end

