-- ==== Sys2Proof/Machine/State.lean ====
section
/-! DEFINITION. Everything the spec gives the machine, as plain data (spec 10_state.md, 20_memory.md), the reasons a
step can stop, and the state after reset (R30, R160). -/

namespace Sys2Proof.Machine

/-- Memory as (address, word) pairs, addresses strictly rising and below 32768, no pair holding the 0 that an
unlisted address reads as (R30, R40). DEDUCED, safe (log 1). `Memory.wf` says this form holds. -/
abbrev Memory := List (Nat × Word)

/-- The run status of R21. -/
inductive RunStatus
  /-- Reset done, not started. -/
  | idle
  | running
  | halted
  | faulted
  | cancelled
  deriving DecidableEq, Repr

/-- What the register `fault_kind` holds (R21, R131). -/
inductive FaultKind
  /-- No fault recorded. -/
  | none
  | invalidOperand
  | unknownOpcode
  | stackUnderflow
  | addressOutOfRange
  | modByZero
  | inputExhausted
  | valueOutOfRange
  deriving DecidableEq, Repr

/-- An answer of the input source to `read_char` (R26). -/
inductive ReadAnswer
  | byte (b : Byte)
  /-- No character is available yet. -/
  | blocked
  /-- End of stream. -/
  | eof
  deriving DecidableEq, Repr

/-- A transaction of the host (R27, R28, R162). DESIGN CHOICE, unsafe (log 8): pending ones are held in State, so that which
of host and core acts next is plain data. -/
inductive HostRequest
  /-- The host lets the core have this turn. -/
  | yield
  /-- R28, R160. -/
  | reset
  /-- `load(image)`, the image as its byte stream (R27, R45, R47). -/
  | load (image : List Byte)
  /-- `init_regs` (R27). -/
  | preload (regs : Vector Cell 8)
  /-- The configuration inputs are set (R22). -/
  | configure (config : Config)
  /-- The input source, by the answers it will give, and a fresh output sink are attached (R162 step 4). -/
  | attach (input : List ReadAnswer)
  /-- R28. -/
  | start
  /-- A cancel request (R28, R144). -/
  | cancel
  deriving DecidableEq, Repr

/-- Everything the spec gives the machine (INVENTORY.md, State). -/
structure State where
  /-- R0..R7 (R12). -/
  regs            : Vector Cell 8
  /-- Program counter, 0..32768 (R17). -/
  pc              : BitVec 16
  /-- The stack, its top first (R15, R16). DEDUCED, safe (log 2). -/
  stack           : List Cell
  /-- Memory (R23, R40). -/
  mem             : Memory
  /-- Run status (R21). -/
  status          : RunStatus
  /-- `fault_kind` (R21). -/
  faultKind       : FaultKind
  /-- `fault_pc` (R21). -/
  faultPc         : BitVec 16
  /-- `fault_info` (R21). -/
  faultInfo       : Word
  /-- Configuration inputs (R22). DEDUCED, safe (log 7): held as data no instruction writes. -/
  config          : Config
  /-- The host has requested cancel (R28, R144; log 9). -/
  cancelRequested : Bool
  /-- The answers the input source will give, oldest first (R24, R26; log 5). -/
  input           : List ReadAnswer
  /-- The bytes the output sink has received, oldest first (R24, R25). -/
  output          : List Byte
  /-- The host's pending transactions, oldest first (log 8). -/
  requests        : List HostRequest
  deriving DecidableEq, Repr

/-- Why the machine stops with a fault. No instruction raises one: the faults of R131 are taken as next states
(R142; log 3). -/
inductive Fault
  /-- Raised by a host `load` of a byte stream of odd length: the loader refuses it and the run does not start
  (R47, log 11). Safe: the machine stops. -/
  | imageOddLength
  /-- Raised by a host `load` of more than 32768 words: the loader refuses it (R47, log 11). Safe: the machine
  stops. -/
  | imageTooLong
  deriving DecidableEq, Repr

/-- Why the model gives a step no meaning. No instruction that has its meaning is refused. -/
inductive Refusal
  /-- An instruction without a meaning, raised by exec's arm for it. Safe: the machine stops. -/
  | notModelled (mnemonic : String)
  /-- Raised by a host load, preload, configure or attach while the status is not Idle, which the spec leaves unsaid
  (R27, 93_implementation_defined.md U13; log 10). Safe: the machine stops. -/
  | hostWriteWhileNotIdle
  /-- Raised by a host start while the status is not Idle, which the spec leaves unsaid (R28; log 10). Safe: the
  machine stops. -/
  | startWhileNotIdle
  deriving DecidableEq, Repr

/-- The outcome of a step or of an instruction. -/
abbrev Result := Host.Outcome State Fault Refusal

/-- The state after reset (R30, R160): no program, not started. DESIGN CHOICE, unsafe (log 17): the environment's two
lists `input` and `requests` are empty. -/
def State.reset : State where
  regs := Vector.replicate 8 0
  pc := 0
  stack := []
  mem := []
  status := .idle
  faultKind := .none
  faultPc := 0
  faultInfo := 0
  config := Config.default
  cancelRequested := false
  input := []
  output := []
  requests := []

end Sys2Proof.Machine
end

