-- ==== Sys2Proof/Machine/Memory.lean ====
section
/-! DEFINITION. The memory as a data structure: read, write, the program image, the canonical form (spec 20_memory.md). -/

namespace Sys2Proof.Machine

/-- What an address holds that memory does not list: 0 (R30, R47). -/
def unlisted : Word := 0

/-- The word at an address. -/
def Memory.read : Memory → Nat → Word
  | [], _ => unlisted
  | (b, w) :: m, a => if a = b then w else Memory.read m a

/-- A pair in front of memory, left out when it holds what an unlisted address reads as. -/
def Memory.cons (a : Nat) (w : Word) (m : Memory) : Memory := if w = unlisted then m else (a, w) :: m

/-- Memory with the word at one address replaced; the canonical form is kept. -/
def Memory.write : Memory → Nat → Word → Memory
  | [], a, w => Memory.cons a w []
  | (b, x) :: m, a, w =>
    if a < b then Memory.cons a w ((b, x) :: m)
    else if a = b then Memory.cons a w m
    else (b, x) :: Memory.write m a w

/-- Every listed address is at least `lo` and below 32768, addresses rise strictly, no listed word is the unlisted
one. -/
def Memory.wfFrom : Nat → Memory → Bool
  | _, [] => true
  | lo, (a, w) :: m => decide (lo ≤ a) && decide (a < memCells) && decide (w ≠ unlisted) && Memory.wfFrom (a + 1) m

/-- The canonical form. -/
def Memory.wf (m : Memory) : Bool := Memory.wfFrom 0 m

/-- The words of an image at the addresses from `a` up, every other location 0 (R47). -/
def Memory.ofWords : Nat → List Word → Memory
  | _, [] => []
  | a, w :: ws => Memory.cons a w (Memory.ofWords (a + 1) ws)

/-- The words at the `n` addresses from `a` up, as far as memory reaches (R71, R73). -/
def Memory.window (m : Memory) (a : Nat) : Nat → List Word
  | 0 => []
  | n + 1 => if a < memCells then Memory.read m a :: Memory.window m (a + 1) n else []

/-- Memory with words written from `a` up, as far as memory reaches. -/
def Memory.writeWords : Memory → Nat → List Word → Memory
  | m, _, [] => m
  | m, a, w :: ws => if a < memCells then Memory.writeWords (Memory.write m a w) (a + 1) ws else m

end Sys2Proof.Machine
end

