-- ==== Sys2Proof/Machine/Ops.lean ====
section
/-! DEFINITION. The named operations over the state, taking a fault, and halting (spec 10_state.md, 20_memory.md,
60_exceptions.md). Special behaviour of a register or of memory lives here and nowhere else. -/

namespace Sys2Proof.Machine

/-- `x[r]` (R8, R14). No register is hard-wired (R12). -/
def State.reg (s : State) (r : Reg) : Cell := s.regs[r]

/-- `x[r] <- v` (R8, R14). -/
def State.setReg (s : State) (r : Reg) (v : Cell) : State := { s with regs := s.regs.set r v }

/-- `pc <- t` (R8). -/
def State.setPc (s : State) (t : BitVec 16) : State := { s with pc := t }

/-- Sequential advance by the instruction's length in words (R18). -/
def State.advance (s : State) (len : Nat) : State := s.setPc (s.pc + BitVec.ofNat 16 len)

/-- `pc <- t` for a control-transfer target, a Cell used verbatim (R18, R98). -/
def State.jumpTo (s : State) (t : Cell) : State := s.setPc t.toWord

/-- The stack as a whole. -/
def State.setStack (s : State) (st : List Cell) : State := { s with stack := st }

/-- `S.push(v)` (R16); the stack is unbounded (R15), the spec's own D11, unsafe against a finite stack (log 13). -/
def State.push (s : State) (v : Cell) : State := s.setStack (v :: s.stack)

/-- Memory as a whole. -/
def State.setMem (s : State) (m : Memory) : State := { s with mem := m }

/-- The run status (R21). -/
def State.setStatus (s : State) (st : RunStatus) : State := { s with status := st }

/-- The answers the input source still has to give. -/
def State.setInput (s : State) (answers : List ReadAnswer) : State := { s with input := answers }

/-- `write_char(b)`: the sink always accepts (R25). -/
def State.writeChar (s : State) (b : Byte) : State := { s with output := s.output ++ [b] }

/-- The host's pending transactions. -/
def State.setRequests (s : State) (rs : List HostRequest) : State := { s with requests := rs }

/-- The four run status registers as fault entry leaves them (R142). -/
def State.recordFault (s : State) (k : FaultKind) (info : Word) : State :=
  { s with status := .faulted, faultKind := k, faultPc := s.pc, faultInfo := info }

/-- Taking a fault, `raise K(info)`: status, fault_kind, fault_pc (the pc of the instruction) and fault_info are
written and nothing else changes (R140, R142). DEDUCED, safe (log 3): taking it is a next state. There is no return from a fault (R143): only a host reset goes
on. -/
def raise (k : FaultKind) (info : Word) (s : State) : Result := .next (s.recordFault k info)

/-- `halt()`: normal completion; the pc stays (R80, R145), the spec's own D12, unsafe (log 15). -/
def halt (s : State) : Result := .next (s.setStatus .halted)

/-- `MemRead(addr, 1)` (R42): the word at an address; AddressOutOfRange at 32768 or above. -/
def withMemRead (addr : Nat) (s : State) (k : Word → Result) : Result :=
  if addr < memCells then k (Memory.read s.mem addr) else raise .addressOutOfRange 0 s

/-- `MemWrite(addr, 1, v)` (R42): the Cell is stored with bit 15 = 0; AddressOutOfRange at 32768 or above. -/
def withMemWrite (addr : Nat) (v : Cell) (s : State) (k : State → Result) : Result :=
  if addr < memCells then k (s.setMem (Memory.write s.mem addr v.toWord)) else raise .addressOutOfRange 0 s

/-- `read_char()` (R26): the answer, and the state after it. A byte is consumed; Blocked and Eof consume no
character. DESIGN CHOICE, unsafe (log 5), DEDUCED, safe (log 6): a Blocked answer of the script has been given and the next try gets the next
answer; past the script the source answers Blocked; Eof stays the answer. -/
def readChar (s : State) : ReadAnswer × State :=
  match s.input with
  | [] => (.blocked, s)
  | .byte b :: rest => (.byte b, s.setInput rest)
  | .blocked :: rest => (.blocked, s.setInput rest)
  | .eof :: _ => (.eof, s)

/-- What an opcode word 22..65535 does (R68, R133): skipped by one word under `lenient`, a fault otherwise. -/
def unknownOpcode (op : Word) (s : State) : Result :=
  if s.config.lenient then .next (s.advance 1) else raise .unknownOpcode op s

end Sys2Proof.Machine
end

