-- ==== Sys2Proof/Machine/Flags.lean ====
section
/-! DEFINITION. The hardware has no flags (spec 10_state.md R20): a comparison writes the Cell 1 or 0 to a register
and a conditional jump tests an operand value against 0. These are the two computations that stand for flags. -/

namespace Sys2Proof.Machine

/-- The Cell a comparison writes: exactly 1 or 0 (R90, R91). -/
def cellOfBool (b : Bool) : Cell := if b then 1 else 0

/-- A condition value: 0 is false, any other value is true (R96, R97). -/
def isNonzero (c : Cell) : Bool := decide (c ≠ 0)

end Sys2Proof.Machine
end

