-- ==== Sys2Proof/Machine/Operands.lean ====
section
/-! DEFINITION. The operand resolver (spec 30_encoding.md R63 to R66): the two accessors, and an instruction going on
with what an operand gives or raising InvalidOperand. -/

namespace Sys2Proof.Machine

/-- `resolve` (R64): the value of an operand; an Invalid word is the error. -/
def resolve (s : State) : Operand → Except Word Cell
  | .literal c => .ok c
  | .register r => .ok (s.reg r)
  | .invalid w => .error w

/-- `regidx` (R65): the register an operand names as a destination; any other operand's word is the error. -/
def regidx : Operand → Except Word Reg
  | .literal c => .error (Operand.literal c).word
  | .register r => .ok r
  | .invalid w => .error w

/-- Goes on with the value of an operand, or raises InvalidOperand with the operand word (R64, R132). -/
def withValue (o : Operand) (s : State) (k : Cell → Result) : Result :=
  match resolve s o with
  | .ok v => k v
  | .error w => raise .invalidOperand w s

/-- Goes on with the register a destination names, or raises InvalidOperand with the operand word (R65, R132). -/
def withDst (o : Operand) (s : State) (k : Reg → Result) : Result :=
  match regidx o with
  | .ok r => k r
  | .error w => raise .invalidOperand w s

/-- The end of an instruction that writes one register: the write, then the pc (R14, R18). -/
def writeAndAdvance (d : Reg) (v : Cell) (len : Nat) (s : State) : Result := .next ((s.setReg d v).advance len)

/-- The shape of the three-operand register instructions (format F3): A is the destination, B and C are values, all
validated in this order before anything is written; `f` is the instruction's own result. -/
def binaryOp (f : Cell → Cell → Cell) (a b c : Operand) (s : State) : Result :=
  withDst a s fun d => withValue b s fun x => withValue c s fun y => writeAndAdvance d (f x y) 4 s

end Sys2Proof.Machine
end

