-- ==== Sys2Proof/Machine/Arithmetic.lean ====
section
/-! DEFINITION. add, mult and mod (spec 44_arithmetic.md): computed exactly over the integers and reduced once,
before the write (R103, R104). -/

namespace Sys2Proof.Machine

/-- The Cell of an exact result, reduced modulo 32768 (R103). -/
def reduceToCell (n : Nat) : Cell := BitVec.ofNat 15 (n % modulus)

/-- R100. -/
def execAdd (a b c : Operand) (s : State) : Result :=
  binaryOp (fun x y => reduceToCell (x.toNat + y.toNat)) a b c s

/-- R101. -/
def execMult (a b c : Operand) (s : State) : Result :=
  binaryOp (fun x y => reduceToCell (x.toNat * y.toNat)) a b c s

/-- R102: ModByZero only after the three operands are valid. -/
def execMod (a b c : Operand) (s : State) : Result :=
  withDst a s fun d => withValue b s fun x => withValue c s fun y =>
    if y.toNat = 0 then raise .modByZero 0 s else writeAndAdvance d (reduceToCell (x.toNat % y.toNat)) 4 s

end Sys2Proof.Machine
end

