-- ==== Sys2Proof/Machine/CharIO.lean ====
section
/-! DEFINITION. out and in (spec 48_io.md). -/

namespace Sys2Proof.Machine

/-- R120: one byte, the value modulo 256. -/
def execOut (a : Operand) (s : State) : Result :=
  withValue a s fun v => .next ((s.writeChar (BitVec.ofNat 8 (v.toNat % 256))).advance 2)

/-- R121 to R123: the destination is validated before the source is asked. On Blocked the instruction has not
happened: the machine state is as before and the same `in` is tried again at the next step (log 5). -/
def execInp (a : Operand) (s : State) : Result :=
  withDst a s fun d =>
    match readChar s with
    | (.byte b, s') => writeAndAdvance d (b.setWidth 15) 2 s'
    | (.blocked, s') => .next s'
    | (.eof, s') =>
      match s.config.eofPolicy with
      | .fault => raise .inputExhausted 0 s'
      | .halt => halt s'

end Sys2Proof.Machine
end

