-- ==== Sys2Proof/Machine/Compare.lean ====
section
/-! DEFINITION. eq and gt, unsigned (spec 42_compare.md). -/

namespace Sys2Proof.Machine

/-- R90. -/
def execEq (a b c : Operand) (s : State) : Result :=
  binaryOp (fun x y => cellOfBool (decide (x = y))) a b c s

/-- R91: strict, unsigned. -/
def execGt (a b c : Operand) (s : State) : Result :=
  binaryOp (fun x y => cellOfBool (decide (x.toNat > y.toNat))) a b c s

end Sys2Proof.Machine
end

