-- ==== Sys2Proof/Machine/Jumps.lean ====
section
/-! DEFINITION. jmp, jt and jf (spec 43_jumps.md). -/

namespace Sys2Proof.Machine

/-- R95. -/
def execJmp (a : Operand) (s : State) : Result :=
  withValue a s fun t => .next (s.jumpTo t)

/-- R96: the target is validated whether or not the jump is taken (R72). -/
def execJt (a b : Operand) (s : State) : Result :=
  withValue a s fun c => withValue b s fun t => .next (if isNonzero c then s.jumpTo t else s.advance 3)

/-- R97. -/
def execJf (a b : Operand) (s : State) : Result :=
  withValue a s fun c => withValue b s fun t => .next (if isNonzero c then s.advance 3 else s.jumpTo t)

end Sys2Proof.Machine
end

