-- ==== Sys2Proof/Machine/Logic.lean ====
section
/-! DEFINITION. and, or and not on the 15 bits of Cells (spec 45_logic.md). -/

namespace Sys2Proof.Machine

/-- R105. -/
def execAnd (a b c : Operand) (s : State) : Result := binaryOp (fun x y => x &&& y) a b c s

/-- R106. -/
def execOr (a b c : Operand) (s : State) : Result := binaryOp (fun x y => x ||| y) a b c s

/-- R107: the 15-bit complement, 32767 - a. -/
def execNot (a b : Operand) (s : State) : Result :=
  withDst a s fun d => withValue b s fun x => writeAndAdvance d (BitVec.ofNat 15 (32767 - x.toNat)) 3 s

end Sys2Proof.Machine
end

