-- ==== Sys2Proof/Machine/MemoryAccess.lean ====
section
/-! DEFINITION. rmem and wmem (spec 46_memory_access.md). -/

namespace Sys2Proof.Machine

/-- The effective address, the only one there is: EA = resolve(addr), an absolute word address (R112). -/
abbrev effectiveAddress (ea : Cell) : Nat := ea.toNat

/-- R110: a word above 32767 faults, or under `rmem_wide = Reduce` is reduced modulo 32768. -/
def execRmem (a b : Operand) (s : State) : Result :=
  withDst a s fun d => withValue b s fun ea => withMemRead (effectiveAddress ea) s fun w =>
    if w.toNat < modulus then writeAndAdvance d (BitVec.ofNat 15 w.toNat) 3 s
    else match s.config.rmemWide with
      | .fault => raise .valueOutOfRange w s
      | .reduce => writeAndAdvance d (BitVec.ofNat 15 (w.toNat % modulus)) 3 s

/-- R111: the address first, the data second; both are values. -/
def execWmem (a b : Operand) (s : State) : Result :=
  withValue a s fun ea => withValue b s fun v =>
    withMemWrite (effectiveAddress ea) v s fun s' => .next (s'.advance 3)

end Sys2Proof.Machine
end

