-- ==== Sys2Proof/Machine/MoveStack.lean ====
section
/-! DEFINITION. set, push and pop (spec 41_move_stack.md). -/

namespace Sys2Proof.Machine

/-- R85. -/
def execSet (a b : Operand) (s : State) : Result :=
  withDst a s fun d => withValue b s fun v => writeAndAdvance d v 3 s

/-- R86. -/
def execPush (a : Operand) (s : State) : Result :=
  withValue a s fun v => .next ((s.push v).advance 2)

/-- R87: the destination is validated before the stack is looked at. -/
def execPop (a : Operand) (s : State) : Result :=
  withDst a s fun d =>
    match s.stack with
    | [] => raise .stackUnderflow 0 s
    | v :: rest => writeAndAdvance d v 2 (s.setStack rest)

end Sys2Proof.Machine
end

