-- ==== Sys2Proof/Machine/Subroutine.lean ====
section
/-! DEFINITION. call and ret (spec 47_call_ret.md). -/

namespace Sys2Proof.Machine

/-- R115: the return address pc0 + 2 must be a Cell; a call at 32766 raises AddressOutOfRange before the push. -/
def execCall (a : Operand) (s : State) : Result :=
  withValue a s fun t =>
    if s.pc.toNat + 2 < memCells then .next ((s.push (BitVec.ofNat 15 (s.pc.toNat + 2))).jumpTo t)
    else raise .addressOutOfRange 0 s

/-- R116: on an empty stack the run ends Halted. -/
def execRet (s : State) : Result :=
  match s.stack with
  | [] => halt s
  | t :: rest => .next ((s.setStack rest).jumpTo t)

end Sys2Proof.Machine
end

