-- ==== Sys2Proof/Machine/System.lean ====
section
/-! DEFINITION. halt and noop (spec 40_system.md). -/

namespace Sys2Proof.Machine

/-- R80. -/
def execHalt (s : State) : Result := halt s

/-- R81. -/
def execNoop (s : State) : Result := .next (s.advance 1)

end Sys2Proof.Machine
end

