-- ==== Sys2Proof/Machine/HostPort.lean ====
section
/-! DEFINITION. The host's side of the core: the transactions of reset, load, launch and cancel, and what the host
reads (spec 10_state.md R21, R27 to R29; 20_memory.md R45, R47; 70_reset_and_hazards.md R160 to R162). -/

namespace Sys2Proof.Machine

/-- `reset`, from any status: every piece of the machine state and the run status as R160 says. DESIGN CHOICE, unsafe (log 9): a
cancel request is dropped. DEDUCED, safe (log 7): the configuration inputs, the channels and the host's own list are not
the core's and stay (R30). -/
def serveReset (s : State) : State :=
  { State.reset with config := s.config, input := s.input, output := s.output, requests := s.requests }

/-- A host write, legal only while Idle (R27, U13). DEDUCED, safe (log 10): otherwise refused. -/
def whileIdle (s : State) (o : Result) : Result :=
  match s.status with
  | .idle => o
  | .running => .refused .hostWriteWhileNotIdle
  | .halted => .refused .hostWriteWhileNotIdle
  | .faulted => .refused .hostWriteWhileNotIdle
  | .cancelled => .refused .hostWriteWhileNotIdle

/-- `load(image)` (R27, R45, R47): word i at address i, 0 elsewhere; an odd or too long image is refused whole.
DEDUCED, safe (log 11): the machine stops. -/
def serveLoad (image : List Byte) (s : State) : Result :=
  match wordsOfBytes image with
  | none => .fault .imageOddLength
  | some ws => if ws.length ≤ memCells then .next (s.setMem (Memory.ofWords 0 ws)) else .fault .imageTooLong

/-- `start`: Idle to Running (R28). DESIGN CHOICE, safe (log 10): otherwise refused. -/
def serveStart (s : State) : Result :=
  match s.status with
  | .idle => .next (s.setStatus .running)
  | .running => .refused .startWhileNotIdle
  | .halted => .refused .startWhileNotIdle
  | .faulted => .refused .startWhileNotIdle
  | .cancelled => .refused .startWhileNotIdle

/-- One numeric encoding of the status register (R21). -/
def RunStatus.code : RunStatus → BitVec 3
  | .idle => 0
  | .running => 1
  | .halted => 2
  | .faulted => 3
  | .cancelled => 4

/-- The fault codes (R131). -/
def FaultKind.code : FaultKind → BitVec 3
  | .none => 0
  | .invalidOperand => 1
  | .unknownOpcode => 2
  | .stackUnderflow => 3
  | .addressOutOfRange => 4
  | .modByZero => 5
  | .inputExhausted => 6
  | .valueOutOfRange => 7

/-- What `run` returns (R29). -/
inductive TerminationReason
  | halted
  | faulted (kind : FaultKind) (pc : BitVec 16)
  | cancelled
  deriving DecidableEq, Repr

/-- The termination reason the host reads from the status registers; none while the run has not ended (R29, R164). -/
def State.terminationReason (s : State) : Option TerminationReason :=
  match s.status with
  | .idle => none
  | .running => none
  | .halted => some .halted
  | .faulted => some (.faulted s.faultKind s.faultPc)
  | .cancelled => some .cancelled

end Sys2Proof.Machine
end

