-- ==== Sys2Proof/Machine/Fetch.lean ====
section
/-! DEFINITION. What a step does up to the instruction's own rule: whose turn it is, cancel, fetch and decode (steps 0
to 5 of spec 30_encoding.md R71). Operands are validated by the meanings (step 6), in operand order. -/

namespace Sys2Proof.Machine

/-- The words from the pc on, at most the longest instruction, as far as memory reaches. Memory has no side effect on
a read (R48), so fetching a word the instruction does not need changes nothing. -/
def fetchWords (s : State) : List Word := Memory.window s.mem s.pc.toNat 4

/-- The decoder's errors as the steps of R71 take them. -/
def onDecodeError (e : DecodeError) (s : State) : Result :=
  match e with
  | .noOpcodeWord => raise .addressOutOfRange 0 s
  | .unknownOpcode op => unknownOpcode op s
  | .noOperandWord => raise .addressOutOfRange 0 s

/-- What a turn comes to. -/
inductive Turn
  /-- The turn is over with this outcome. -/
  | done (o : Result)
  /-- The core runs an instruction in a state. -/
  | run (i : Instr) (s : State)

/-- The core's turn (R71): only in Running does it take a step (R164). DEDUCED, safe (log 4): a
turn without a step leaves the state as it is. Cancel is sampled first (R144). -/
def coreTurn (s : State) : Turn :=
  match s.status with
  | .idle => .done (.next s)
  | .halted => .done (.next s)
  | .faulted => .done (.next s)
  | .cancelled => .done (.next s)
  | .running =>
    if s.cancelRequested then .done (.next (s.setStatus .cancelled))
    else match decode (fetchWords s) with
      | .ok (i, _) => .run i s
      | .error e => .done (onDecodeError e s)

/-- Whose turn it is: the host's oldest pending transaction, or the core's. DESIGN CHOICE, unsafe (log 8). -/
def nextTurn (s : State) : Turn :=
  match s.requests with
  | [] => coreTurn s
  | .yield :: rest => coreTurn (s.setRequests rest)
  | .reset :: rest => .done (.next (serveReset (s.setRequests rest)))
  | .load image :: rest => .done (whileIdle s (serveLoad image (s.setRequests rest)))
  | .preload regs :: rest => .done (whileIdle s (.next { s.setRequests rest with regs := regs }))
  | .configure config :: rest => .done (whileIdle s (.next { s.setRequests rest with config := config }))
  | .attach input :: rest =>
    .done (whileIdle s (.next { s.setRequests rest with input := input, output := [] }))
  | .start :: rest => .done (serveStart (s.setRequests rest))
  | .cancel :: rest => .done (.next { s.setRequests rest with cancelRequested := true })

/-- The state with words placed from the pc on and the core about to take its turn. DESIGN CHOICE, safe (log
12). -/
def placeWords (s : State) (ws : List Word) : State :=
  { s with mem := Memory.writeWords s.mem s.pc.toNat ws, status := .running, cancelRequested := false, requests := [] }

end Sys2Proof.Machine
end

