-- ==== Sys2Proof/Machine/Step.lean ====
section
/-! DEFINITION. One step: the turn of Fetch.lean, and the instruction it comes to (spec 30_encoding.md R71). -/

namespace Sys2Proof.Machine

/-- One step of the machine: one transaction of the host or one whole instruction of the core (R6, R71). -/
def step (s : State) : Host.Outcome State Fault Refusal :=
  match nextTurn s with
  | .done o => o
  | .run i s' => exec i s'

/-- `s` with the instruction of a table word stored where the next step fetches, and that step the core's (log 12). -/
def State.withFetchWord (s : State) (nbits w : Nat) : State := placeWords s (tableWords nbits w)

end Sys2Proof.Machine
end

