-- ==== Sys2Proof/Safety.lean ====
section
/-! DEFINITION. The terms claims are stated in: what two states have in common, what taking a fault leaves, a run's
end, the invariant of R32, and the shapes of rule that several instructions share. -/

namespace Sys2Proof.Machine

/-! ### What two states have in common -/

/-- Every register reads the same. -/
def SameRegs (s t : State) : Prop := ∀ r : Reg, t.reg r = s.reg r

/-- Every address of memory reads the same. -/
def SameMemory (s t : State) : Prop := ∀ a : Nat, Memory.read t.mem a = Memory.read s.mem a

/-- The run status registers of R21 are the same. -/
def SameStatus (s t : State) : Prop :=
  t.status = s.status ∧ t.faultKind = s.faultKind ∧ t.faultPc = s.faultPc ∧ t.faultInfo = s.faultInfo

/-- The input source and the output sink are as they were (R25, R26). -/
def SameChannels (s t : State) : Prop := t.input = s.input ∧ t.output = s.output

/-- What the host drives is the same: the configuration, the cancel request, the pending transactions. -/
def SameHostSide (s t : State) : Prop :=
  t.config = s.config ∧ t.cancelRequested = s.cancelRequested ∧ t.requests = s.requests

/-- The machine state of R10, its four parts, is the same. -/
def SameMachineState (s t : State) : Prop :=
  SameRegs s t ∧ t.pc = s.pc ∧ t.stack = s.stack ∧ SameMemory s t

/-! ### Faults and ends -/

/-- `t` is `s` after fault entry (R142): the four status registers written, nothing else changed (R140). -/
def FaultEntry (s t : State) (k : FaultKind) (info : Word) : Prop :=
  t.status = .faulted ∧ t.faultKind = k ∧ t.faultPc = s.pc ∧ t.faultInfo = info ∧
    SameMachineState s t ∧ SameChannels s t ∧ SameHostSide s t

/-- An outcome is the fault `k` taken from `s`. -/
def Raises (o : Result) (s : State) (k : FaultKind) (info : Word) : Prop :=
  ∃ t, o = .next t ∧ FaultEntry s t k info

/-- An outcome is the run's normal end from `s` (R145): the status becomes Halted, nothing else changes. -/
def HaltsRun (o : Result) (s : State) : Prop :=
  ∃ t, o = .next t ∧ t.status = .halted ∧ t.faultKind = s.faultKind ∧ t.faultPc = s.faultPc ∧
    t.faultInfo = s.faultInfo ∧ SameMachineState s t ∧ SameChannels s t ∧ SameHostSide s t

/-- The run has ended (R164). -/
abbrev State.ended (s : State) : Prop := s.status = .halted ∨ s.status = .faulted ∨ s.status = .cancelled

/-- The core takes its turn next, and takes a step: running, no cancel request, no host transaction pending. -/
abbrev CoreRuns (s : State) : Prop := s.status = .running ∧ s.cancelRequested = false ∧ s.requests = []

/-! ### Operand words by role (R64, R65) -/

/-- A word a destination position accepts (R65). -/
abbrev IsDstWord (w : Word) : Prop := 32768 ≤ w.toNat ∧ w.toNat ≤ 32775

/-- A word a value position accepts (R64). -/
abbrev IsValueWord (w : Word) : Prop := w.toNat ≤ 32775

/-- A word an operand position of a role accepts: the check of R132, on the raw word only. -/
abbrev AcceptsWord (role : Role) (w : Word) : Prop := (role = .dst → IsDstWord w) ∧ (role = .value → IsValueWord w)

/-- The operand count of each of the 22 opcodes, as R70 tabulates it. -/
def operandCount (op : Nat) : Nat :=
  if op ∈ [0, 18, 21] then 0
  else if op ∈ [2, 3, 6, 17, 19, 20] then 1
  else if op ∈ [1, 7, 8, 14, 15, 16] then 2
  else 3

/-! ### Shapes of result -/

/-- `t` is `s` with register `d` holding `v` and the pc advanced by `len`, nothing else changed. -/
structure WritesRegister (s t : State) (d : Reg) (v len : Nat) : Prop where
  value    : (t.reg d).toNat = v
  others   : ∀ r, r ≠ d → t.reg r = s.reg r
  pc       : t.pc = s.pc + BitVec.ofNat 16 len
  stack    : t.stack = s.stack
  memory   : SameMemory s t
  status   : SameStatus s t
  channels : SameChannels s t
  host     : SameHostSide s t

/-- `t` is `s` with the pc at `pc` and nothing else changed. -/
structure MovesPc (s t : State) (pc : BitVec 16) : Prop where
  regs     : SameRegs s t
  pc       : t.pc = pc
  stack    : t.stack = s.stack
  memory   : SameMemory s t
  status   : SameStatus s t
  channels : SameChannels s t
  host     : SameHostSide s t

/-- `t` is `s` with the stack `st` and the pc at `pc` and nothing else changed. -/
structure MovesStack (s t : State) (st : List Cell) (pc : BitVec 16) : Prop where
  regs     : SameRegs s t
  pc       : t.pc = pc
  stack    : t.stack = st
  memory   : SameMemory s t
  status   : SameStatus s t
  channels : SameChannels s t
  host     : SameHostSide s t

/-- The rule of a three-operand instruction (format F3: R90, R91, R100, R101, R105, R106): its words decode to it; the
first of A, B, C that is not valid for its role is reported by InvalidOperand; with valid operands the register A names
takes `f` of the two values, the pc advances by 4 and nothing else changes. -/
def ThreeOperandRule (opcode : Word) (mk : Operand → Operand → Operand → Instr) (f : Nat → Nat → Nat) : Prop :=
  ∀ (A B C : Word) (rest : List Word) (s : State),
    decode (opcode :: A :: B :: C :: rest) = .ok (mk (.ofWord A) (.ofWord B) (.ofWord C), rest) ∧
    (¬ IsDstWord A → Raises (exec (mk (.ofWord A) (.ofWord B) (.ofWord C)) s) s .invalidOperand A) ∧
    (IsDstWord A → ¬ IsValueWord B →
      Raises (exec (mk (.ofWord A) (.ofWord B) (.ofWord C)) s) s .invalidOperand B) ∧
    (IsDstWord A → IsValueWord B → ¬ IsValueWord C →
      Raises (exec (mk (.ofWord A) (.ofWord B) (.ofWord C)) s) s .invalidOperand C) ∧
    ∀ (d : Reg) (x y : Cell), A.toNat = 32768 + d.val →
      resolve s (.ofWord B) = .ok x → resolve s (.ofWord C) = .ok y →
      ∃ t, exec (mk (.ofWord A) (.ofWord B) (.ofWord C)) s = .next t ∧
        WritesRegister s t d (f x.toNat y.toNat) 4

/-- The rule of a two-operand instruction that writes a register (format F2: R85, R107). -/
def DstValueRule (opcode : Word) (mk : Operand → Operand → Instr) (f : Nat → Nat) : Prop :=
  ∀ (A B : Word) (rest : List Word) (s : State),
    decode (opcode :: A :: B :: rest) = .ok (mk (.ofWord A) (.ofWord B), rest) ∧
    (¬ IsDstWord A → Raises (exec (mk (.ofWord A) (.ofWord B)) s) s .invalidOperand A) ∧
    (IsDstWord A → ¬ IsValueWord B → Raises (exec (mk (.ofWord A) (.ofWord B)) s) s .invalidOperand B) ∧
    ∀ (d : Reg) (x : Cell), A.toNat = 32768 + d.val → resolve s (.ofWord B) = .ok x →
      ∃ t, exec (mk (.ofWord A) (.ofWord B)) s = .next t ∧ WritesRegister s t d (f x.toNat) 3

/-- The rule of a conditional jump (format F2: R96, R97): `taken` says for which condition values the pc takes the
target; otherwise it advances by 3. -/
def ConditionalJumpRule (opcode : Word) (mk : Operand → Operand → Instr) (taken : Nat → Prop) : Prop :=
  ∀ (A B : Word) (rest : List Word) (s : State),
    decode (opcode :: A :: B :: rest) = .ok (mk (.ofWord A) (.ofWord B), rest) ∧
    (¬ IsValueWord A → Raises (exec (mk (.ofWord A) (.ofWord B)) s) s .invalidOperand A) ∧
    (IsValueWord A → ¬ IsValueWord B → Raises (exec (mk (.ofWord A) (.ofWord B)) s) s .invalidOperand B) ∧
    ∀ (c g : Cell), resolve s (.ofWord A) = .ok c → resolve s (.ofWord B) = .ok g →
      (taken c.toNat → ∃ t, exec (mk (.ofWord A) (.ofWord B)) s = .next t ∧ MovesPc s t g.toWord) ∧
      (¬ taken c.toNat → ∃ t, exec (mk (.ofWord A) (.ofWord B)) s = .next t ∧ MovesPc s t (s.pc + 3))

/-! ### The invariant -/

/-- R32 and R21, for every state a run can be in. (R32 (a), (b), (e) hold by the type Cell.) Memory keeps its canonical
form, so no address outside 0..32767 is listed; the pc is 0..32768; a fault kind is recorded exactly in Faulted, where
fault_pc is the pc; in every other status the fault registers are 0. -/
structure Inv (s : State) : Prop where
  memory    : Memory.wf s.mem = true
  pc        : s.pc.toNat ≤ 32768
  kind      : s.status = .faulted ↔ s.faultKind ≠ .none
  faultPc   : s.status = .faulted → s.faultPc = s.pc
  faultZero : s.status ≠ .faulted → s.faultPc = 0 ∧ s.faultInfo = 0

/-- The moves of the run status R21 allows in one step: Idle to Running (start), Running to an end (the core), any
value to Idle (reset), and staying. -/
def StatusMove : RunStatus → RunStatus → Prop
  | a, b => a = b ∨ (a = .idle ∧ b = .running) ∨ b = .idle ∨
      (a = .running ∧ (b = .halted ∨ b = .faulted ∨ b = .cancelled))

/-- Two states that agree on everything a run depends on: the machine state of R10, the status, the configuration, the
answers of the input source, and what the host asks for. The fault registers and the output so far may differ. -/
structure Agree (s u : State) : Prop where
  regs     : u.regs = s.regs
  pc       : u.pc = s.pc
  stack    : u.stack = s.stack
  mem      : u.mem = s.mem
  status   : u.status = s.status
  config   : u.config = s.config
  input    : u.input = s.input
  cancel   : u.cancelRequested = s.cancelRequested
  requests : u.requests = s.requests

/-- Instructions run one after another, stopping at the first that answers no next state. -/
def execAll : List Instr → State → Result
  | [], s => .next s
  | i :: is, s =>
    match exec i s with
    | .next t => execAll is t
    | .fault r => .fault r
    | .refused r => .refused r

end Sys2Proof.Machine
end

