-- ==== Sys2Proof/Certificates/Slice0/Obligations.lean ====
section
/-! DEFINITION. The statements about the machine, from the numbered rules of the spec; OBLIGATIONS.json lists them. -/

open Sys2Proof Sys2Proof.Machine

/-! ### Encoding -/

/-- R63: the three classes of operand words, by range and by bits; they cover 0..65535 and exclude each other. -/
def Obligations.OperandWordClasses : Prop := ∀ w : Word,
  (w.toNat ≤ 32767 → w.getLsbD 15 = false ∧
    ∃ c : Cell, Operand.ofWord w = .literal c ∧ c.toNat = w.toNat ∧ c = w.extractLsb' 0 15) ∧
  (32768 ≤ w.toNat ∧ w.toNat ≤ 32775 → w.getLsbD 15 = true ∧ w.extractLsb' 3 12 = 0#12 ∧
    ∃ r : Reg, Operand.ofWord w = .register r ∧ 32768 + r.val = w.toNat ∧ r.val = (w.extractLsb' 0 3).toNat) ∧
  (32776 ≤ w.toNat → w.getLsbD 15 = true ∧ w.extractLsb' 3 12 ≠ 0#12 ∧ Operand.ofWord w = .invalid w)

/-- R70: the length is 1 + n with n from the opcode's table and from nothing else. -/
def Obligations.LengthComesFromOpcodeAlone : Prop :=
  ∀ (op : Word) (ws rest : List Word) (i : Instr), decode (op :: ws) = .ok (i, rest) →
    op.toNat < 22 ∧ i.length = 1 + operandCount op.toNat ∧ (op :: ws).length = i.length + rest.length

/-- Decoding what is encoded gives the instruction back, for every instruction and every operand the encoding admits,
whatever words follow. -/
def Obligations.DecodeOfEncodeIsTheInstruction : Prop :=
  ∀ (i : Instr) (rest : List Word), i.classified = true → decode (encode i ++ rest) = .ok (i, rest)

/-- Each word has one meaning: encoding what is decoded gives the words back, and the decoder yields only operands
that stand under their own class. -/
def Obligations.EncodeOfDecodeIsTheWords : Prop :=
  ∀ (ws rest : List Word) (i : Instr), decode ws = .ok (i, rest) → ws = encode i ++ rest ∧ i.classified = true

/-- Words written out from the spec's encodings, one or two of every family. -/
def Obligations.SampleWordsDecode : Prop :=
  decode [0x0000] = .ok (.halt, []) ∧ decode [0x0015, 0] = .ok (.noop, [0]) ∧
  decode [0x0001, 0x8002, 0x04D2] = .ok (.set (.register 2) (.literal 1234), []) ∧
  decode [0x0002, 0x0007] = .ok (.push (.literal 7), []) ∧ decode [0x0003, 0x8007] = .ok (.pop (.register 7), []) ∧
  decode [0x0005, 0x8000, 0x7FFF, 0x8001] = .ok (.gt (.register 0) (.literal 32767) (.register 1), []) ∧
  decode [0x0007, 0x8000, 0x0006] = .ok (.jt (.register 0) (.literal 6), []) ∧
  decode [0x0009, 0x8000, 0x0004, 0x0006] = .ok (.add (.register 0) (.literal 4) (.literal 6), []) ∧
  decode [0x000E, 0x8000, 0x8000] = .ok (.not (.register 0) (.register 0), []) ∧
  decode [0x0010, 0x0003, 0x8008] = .ok (.wmem (.literal 3) (.invalid 0x8008), []) ∧
  decode [0x0011, 0x0005] = .ok (.call (.literal 5), []) ∧ decode [0x0012] = .ok (.ret, []) ∧
  decode [0x0013, 0x0041] = .ok (.out (.literal 65), []) ∧ decode [0x0014, 0x8001] = .ok (.inp (.register 1), []) ∧
  decode [0x8000] = .error (.unknownOpcode 0x8000) ∧ decode [0x0016, 1] = .error (.unknownOpcode 22)

/-! ### The operand resolver -/

/-- R64. -/
def Obligations.ResolveGivesLiteralOrRegisterValue : Prop := ∀ (w : Word) (s : State),
  (w.toNat ≤ 32767 → ∃ c, resolve s (.ofWord w) = .ok c ∧ c.toNat = w.toNat) ∧
  (∀ r : Reg, w.toNat = 32768 + r.val → resolve s (.ofWord w) = .ok (s.reg r)) ∧
  (32776 ≤ w.toNat → ∀ k, Raises (withValue (.ofWord w) s k) s .invalidOperand w) ∧
  ∀ c, resolve s (.ofWord w) = .ok c → c.toNat ≤ 32767 ∧ ∀ k, withValue (.ofWord w) s k = k c

/-- R65. -/
def Obligations.RegidxNamesTheDestination : Prop := ∀ (w : Word) (s : State) (k : Reg → Result),
  (∀ r : Reg, w.toNat = 32768 + r.val → regidx (.ofWord w) = .ok r ∧ withDst (.ofWord w) s k = k r) ∧
  (w.toNat < 32768 ∨ 32775 < w.toNat → Raises (withDst (.ofWord w) s k) s .invalidOperand w)

/-! ### System instructions -/

/-- `halt` (40_system.md). That the pc stays is the spec's own decision D12 (log 15). -/
def Obligations.HaltEndsTheRun : Prop := ∀ (rest : List Word) (s : State),
  decode (0 :: rest) = .ok (.halt, rest) ∧ HaltsRun (exec .halt s) s

/-- R81. -/
def Obligations.NoopOnlyAdvancesThePc : Prop := ∀ (rest : List Word) (s : State),
  decode (21 :: rest) = .ok (.noop, rest) ∧ ∃ t, exec .noop s = .next t ∧ MovesPc s t (s.pc + 1)

/-! ### Register move and stack -/

/-- R85. -/
def Obligations.SetWritesTheValue : Prop := DstValueRule 1 .set fun x => x

/-- R86. -/
def Obligations.PushAddsTheValueOnTop : Prop := ∀ (A : Word) (rest : List Word) (s : State),
  decode (2 :: A :: rest) = .ok (.push (.ofWord A), rest) ∧
  (¬ IsValueWord A → Raises (exec (.push (.ofWord A)) s) s .invalidOperand A) ∧
  ∀ v, resolve s (.ofWord A) = .ok v →
    ∃ t, exec (.push (.ofWord A)) s = .next t ∧ MovesStack s t (v :: s.stack) (s.pc + 2)

/-- `pop` (41_move_stack.md). That InvalidOperand comes before StackUnderflow is the spec's own decision D7 (log 16). -/
def Obligations.PopMovesTheTopToTheRegister : Prop := ∀ (A : Word) (rest : List Word) (s : State),
  decode (3 :: A :: rest) = .ok (.pop (.ofWord A), rest) ∧
  (¬ IsDstWord A → Raises (exec (.pop (.ofWord A)) s) s .invalidOperand A) ∧
  (IsDstWord A → s.stack = [] → Raises (exec (.pop (.ofWord A)) s) s .stackUnderflow 0) ∧
  ∀ (d : Reg) (v : Cell) (st : List Cell), A.toNat = 32768 + d.val → s.stack = v :: st →
    ∃ t, exec (.pop (.ofWord A)) s = .next t ∧ WritesRegister { s with stack := st } t d v.toNat 2

/-! ### Comparison, arithmetic, logic -/

/-- R90. -/
def Obligations.EqWritesOneOrZero : Prop := ThreeOperandRule 4 .eq fun x y => if x = y then 1 else 0

/-- R91: strict and unsigned. -/
def Obligations.GtComparesUnsigned : Prop := ThreeOperandRule 5 .gt fun x y => if x > y then 1 else 0

/-- R100. -/
def Obligations.AddWrapsModulo32768 : Prop := ThreeOperandRule 9 .add fun x y => (x + y) % 32768

/-- R101. -/
def Obligations.MultWrapsModulo32768 : Prop := ThreeOperandRule 10 .mult fun x y => (x * y) % 32768

/-- R102. -/
def Obligations.ModGivesTheRemainder : Prop := ∀ (A B C : Word) (rest : List Word) (s : State),
  decode (11 :: A :: B :: C :: rest) = .ok (.mod (.ofWord A) (.ofWord B) (.ofWord C), rest) ∧
  (¬ IsDstWord A → Raises (exec (.mod (.ofWord A) (.ofWord B) (.ofWord C)) s) s .invalidOperand A) ∧
  (IsDstWord A → ¬ IsValueWord B →
    Raises (exec (.mod (.ofWord A) (.ofWord B) (.ofWord C)) s) s .invalidOperand B) ∧
  (IsDstWord A → IsValueWord B → ¬ IsValueWord C →
    Raises (exec (.mod (.ofWord A) (.ofWord B) (.ofWord C)) s) s .invalidOperand C) ∧
  ∀ (d : Reg) (x y : Cell), A.toNat = 32768 + d.val →
    resolve s (.ofWord B) = .ok x → resolve s (.ofWord C) = .ok y →
    (y.toNat = 0 → Raises (exec (.mod (.ofWord A) (.ofWord B) (.ofWord C)) s) s .modByZero 0) ∧
    (y.toNat ≠ 0 → ∃ t q r, exec (.mod (.ofWord A) (.ofWord B) (.ofWord C)) s = .next t ∧
      x.toNat = q * y.toNat + r ∧ r < y.toNat ∧ WritesRegister s t d r 4)

/-- R105. -/
def Obligations.AndIsBitwise : Prop := ThreeOperandRule 12 .and fun x y => x &&& y

/-- R106. -/
def Obligations.OrIsBitwise : Prop := ThreeOperandRule 13 .or fun x y => x ||| y

/-- R107. -/
def Obligations.NotIsFifteenBitComplement : Prop := DstValueRule 14 .not fun x => 32767 - x

/-! ### Jumps -/

/-- R95. -/
def Obligations.JmpTakesTheTarget : Prop := ∀ (A : Word) (rest : List Word) (s : State),
  decode (6 :: A :: rest) = .ok (.jmp (.ofWord A), rest) ∧
  (¬ IsValueWord A → Raises (exec (.jmp (.ofWord A)) s) s .invalidOperand A) ∧
  ∀ g, resolve s (.ofWord A) = .ok g → ∃ t, exec (.jmp (.ofWord A)) s = .next t ∧ MovesPc s t g.toWord

/-- `jt` (43_jumps.md). That the target is validated when not taken is the spec's own decision D8 (log 16). -/
def Obligations.JtJumpsOnNonzero : Prop := ConditionalJumpRule 7 .jt fun c => c ≠ 0

/-- `jf` (43_jumps.md). That the target is validated when not taken is the spec's own decision D8 (log 16). -/
def Obligations.JfJumpsOnZero : Prop := ConditionalJumpRule 8 .jf fun c => c = 0

/-! ### Memory -/

/-- R42: the two memory primitives. The premise is the invariant of `StepKeepsTheInvariant`. -/
def Obligations.MemoryPrimitivesReadAndWriteOneWord : Prop := ∀ (addr : Nat) (v : Cell) (s : State),
  Memory.wf s.mem = true →
  (addr ≤ 32767 → ∀ k, withMemRead addr s k = k (Memory.read s.mem addr)) ∧
  (32768 ≤ addr → ∀ k, Raises (withMemRead addr s k) s .addressOutOfRange 0) ∧
  (addr ≤ 32767 → ∃ m, (∀ k, withMemWrite addr v s k = k { s with mem := m }) ∧
    (Memory.read m addr).toNat = v.toNat ∧ (Memory.read m addr).getLsbD 15 = false ∧
    ∀ a, a ≠ addr → Memory.read m a = Memory.read s.mem a) ∧
  (32768 ≤ addr → ∀ k, Raises (withMemWrite addr v s k) s .addressOutOfRange 0)

/-- `rmem` (46_memory_access.md). ValueOutOfRange for a word above 32767, and the reduction under
`rmem_wide = Reduce`, are the spec's own decision D2 (log 16). -/
def Obligations.RmemLoadsTheWord : Prop := ∀ (A B : Word) (rest : List Word) (s : State),
  decode (15 :: A :: B :: rest) = .ok (.rmem (.ofWord A) (.ofWord B), rest) ∧
  (¬ IsDstWord A → Raises (exec (.rmem (.ofWord A) (.ofWord B)) s) s .invalidOperand A) ∧
  (IsDstWord A → ¬ IsValueWord B → Raises (exec (.rmem (.ofWord A) (.ofWord B)) s) s .invalidOperand B) ∧
  ∀ (d : Reg) (ea : Cell), A.toNat = 32768 + d.val → resolve s (.ofWord B) = .ok ea →
    ((Memory.read s.mem ea.toNat).toNat ≤ 32767 → ∃ t, exec (.rmem (.ofWord A) (.ofWord B)) s = .next t ∧
      WritesRegister s t d (Memory.read s.mem ea.toNat).toNat 3) ∧
    (32768 ≤ (Memory.read s.mem ea.toNat).toNat → s.config.rmemWide = .fault →
      Raises (exec (.rmem (.ofWord A) (.ofWord B)) s) s .valueOutOfRange (Memory.read s.mem ea.toNat)) ∧
    (32768 ≤ (Memory.read s.mem ea.toNat).toNat → s.config.rmemWide = .reduce →
      ∃ t, exec (.rmem (.ofWord A) (.ofWord B)) s = .next t ∧
        WritesRegister s t d ((Memory.read s.mem ea.toNat).toNat % 32768) 3)

/-- R111, with the frame of all of memory. The premise is the invariant of `StepKeepsTheInvariant`. -/
def Obligations.WmemStoresTheValue : Prop := ∀ (A B : Word) (rest : List Word) (s : State),
  Memory.wf s.mem = true →
  decode (16 :: A :: B :: rest) = .ok (.wmem (.ofWord A) (.ofWord B), rest) ∧
  (¬ IsValueWord A → Raises (exec (.wmem (.ofWord A) (.ofWord B)) s) s .invalidOperand A) ∧
  (IsValueWord A → ¬ IsValueWord B → Raises (exec (.wmem (.ofWord A) (.ofWord B)) s) s .invalidOperand B) ∧
  ∀ ea v : Cell, resolve s (.ofWord A) = .ok ea → resolve s (.ofWord B) = .ok v →
    ∃ t, exec (.wmem (.ofWord A) (.ofWord B)) s = .next t ∧
      (Memory.read t.mem ea.toNat).toNat = v.toNat ∧
      (∀ a, a ≠ ea.toNat → Memory.read t.mem a = Memory.read s.mem a) ∧
      SameRegs s t ∧ t.pc = s.pc + 3 ∧ t.stack = s.stack ∧ SameStatus s t ∧ SameChannels s t ∧ SameHostSide s t

/-- A store is seen by every later fetch (20_memory.md, instruction-fetch coherence): after `wmem`, each word the next
step fetches from the stored address is the stored one. The premise is the invariant. -/
def Obligations.StoreIsSeenByTheNextFetch : Prop := ∀ (a b : Operand) (ea v : Cell) (s : State),
  Memory.wf s.mem = true → resolve s a = .ok ea → resolve s b = .ok v →
  ∃ t, exec (.wmem a b) s = .next t ∧
    ∀ k, k < 4 → t.pc.toNat + k = ea.toNat → (fetchWords t)[k]? = some v.toWord

/-! ### Subroutines -/

/-- `call` (47_call_ret.md). AddressOutOfRange for a return address of 32768 is the spec's own decision D5 (log 16). -/
def Obligations.CallPushesTheReturnAddress : Prop := ∀ (A : Word) (rest : List Word) (s : State),
  decode (17 :: A :: rest) = .ok (.call (.ofWord A), rest) ∧
  (¬ IsValueWord A → Raises (exec (.call (.ofWord A)) s) s .invalidOperand A) ∧
  ∀ g, resolve s (.ofWord A) = .ok g →
    (s.pc.toNat + 2 ≤ 32767 → ∃ t r, exec (.call (.ofWord A)) s = .next t ∧ r.toNat = s.pc.toNat + 2 ∧
      MovesStack s t (r :: s.stack) g.toWord) ∧
    (32768 ≤ s.pc.toNat + 2 → Raises (exec (.call (.ofWord A)) s) s .addressOutOfRange 0)

/-- `ret` (47_call_ret.md). That the pc stays when the run ends is the spec's own decision D12 (log 15). -/
def Obligations.RetPopsThePcOrHalts : Prop := ∀ (rest : List Word) (s : State),
  decode (18 :: rest) = .ok (.ret, rest) ∧
  (s.stack = [] → HaltsRun (exec .ret s) s) ∧
  ∀ g st, s.stack = g :: st → ∃ t, exec .ret s = .next t ∧ MovesStack s t st g.toWord

/-- LIFO law (10_state.md, stack primitives): pushing values and popping gives them back in reverse order; the
k-th pop puts the k-th value from the top into its register. -/
def Obligations.StackIsLastInFirstOut : Prop := ∀ (vs : List Cell) (s : State) (k : Nat) (r : Reg),
  k < vs.length → ∃ t,
    execAll (vs.map (fun v => .push (.literal v)) ++ List.replicate (k + 1) (.pop (.register r))) s = .next t ∧
    some (t.reg r) = vs.reverse[k]? ∧ t.stack = vs.reverse.drop (k + 1) ++ s.stack

/-! ### Character I/O -/

/-- R120. -/
def Obligations.OutWritesOneByte : Prop := ∀ (A : Word) (rest : List Word) (s : State),
  decode (19 :: A :: rest) = .ok (.out (.ofWord A), rest) ∧
  (¬ IsValueWord A → Raises (exec (.out (.ofWord A)) s) s .invalidOperand A) ∧
  ∀ v, resolve s (.ofWord A) = .ok v → ∃ t b, exec (.out (.ofWord A)) s = .next t ∧
    t.output = s.output ++ [b] ∧ b.toNat = v.toNat % 256 ∧ t.input = s.input ∧ t.pc = s.pc + 2 ∧
    SameRegs s t ∧ t.stack = s.stack ∧ SameMemory s t ∧ SameStatus s t ∧ SameHostSide s t

/-- `in` with a byte ready, and with an invalid destination (48_io.md). That the destination is validated before the
source is asked is the spec's own decision D9 (log 16). -/
def Obligations.InReadsOneByte : Prop := ∀ (A : Word) (rest : List Word) (s : State),
  decode (20 :: A :: rest) = .ok (.inp (.ofWord A), rest) ∧
  (¬ IsDstWord A → Raises (exec (.inp (.ofWord A)) s) s .invalidOperand A) ∧
  ∀ (d : Reg) (b : Byte) (later : List ReadAnswer), A.toNat = 32768 + d.val → s.input = .byte b :: later →
    ∃ t, exec (.inp (.ofWord A)) s = .next t ∧ WritesRegister { s with input := later } t d b.toNat 2

/-- `in` held on Blocked (48_io.md, Blocking): no state of the machine changes and no character is consumed. That the
answers come as a list, a Blocked one given once, is the model's choice (log 5). -/
def Obligations.InBlockedChangesNothing : Prop := ∀ (d : Reg) (s : State),
  (s.input = [] → exec (.inp (.register d)) s = .next s) ∧
  ∀ later, s.input = .blocked :: later → exec (.inp (.register d)) s = .next { s with input := later }

/-- `in` at end of input (48_io.md, End of input): the two policies, the spec's own decision D10 (log 16). -/
def Obligations.InAtEndOfInputFaultsOrHalts : Prop := ∀ (d : Reg) (later : List ReadAnswer) (s : State),
  s.input = .eof :: later →
  (s.config.eofPolicy = .fault → Raises (exec (.inp (.register d)) s) s .inputExhausted 0) ∧
  (s.config.eofPolicy = .halt → HaltsRun (exec (.inp (.register d)) s) s)

/-- R25: only `out` writes to the sink, exactly one byte per executed `out`, which never blocks or fails on a value. -/
def Obligations.OnlyOutWritesToTheSink : Prop := ∀ (i : Instr) (s : State),
  ((∀ a, i ≠ .out a) → ∀ t, exec i s = .next t → t.output = s.output) ∧
  ∀ a v, i = .out a → resolve s a = .ok v → ∃ t b, exec i s = .next t ∧ t.output = s.output ++ [b]

/-- Only `in` asks the source (10_state.md, input interface), and one `in` takes at most the oldest answer; an
answer taken is a byte or a Blocked one (log 5), and end of stream stays (log 6). -/
def Obligations.OnlyInAsksTheSource : Prop := ∀ (i : Instr) (s t : State), exec i s = .next t →
  ((∀ a, i ≠ .inp a) → t.input = s.input) ∧
  (t.input = s.input ∨ (∃ b, s.input = .byte b :: t.input) ∨ s.input = .blocked :: t.input)

/-! ### Frames of every instruction -/

/-- A register keeps its value unless it is the destination operand of the instruction (10_state.md, register
access). -/
def Obligations.RegistersChangeOnlyAsDestination : Prop := ∀ (i : Instr) (s t : State) (r : Reg),
  exec i s = .next t → (Role.dst, Operand.register r) ∉ i.operands → t.reg r = s.reg r

/-- Every address reads as before, but the one a `wmem` stores to (20_memory.md, accesses per instruction). The
premise is the invariant of `StepKeepsTheInvariant`. -/
def Obligations.MemoryChangesOnlyWhereWmemStores : Prop := ∀ (i : Instr) (s t : State) (addr : Nat),
  Memory.wf s.mem = true → exec i s = .next t →
  (∀ a b ea, i = .wmem a b → resolve s a = .ok ea → addr ≠ effectiveAddress ea) →
  Memory.read t.mem addr = Memory.read s.mem addr

/-- The stack changes only by push, call (one entry more) and pop, ret (one entry less) (10_state.md, stack
primitives). -/
def Obligations.StackChangesOnlyByItsInstructions : Prop := ∀ (i : Instr) (s t : State), exec i s = .next t →
  t.stack = s.stack ∨
  (((∃ a, i = .push a) ∨ ∃ a, i = .call a) ∧ ∃ v, t.stack = v :: s.stack) ∨
  (((∃ a, i = .pop a) ∨ i = .ret) ∧ ∃ v, s.stack = v :: t.stack)

/-- No instruction writes what the host drives, and the run status registers are written only by a fault or a normal
end (10_state.md section 5, control and status, the spec's own D20). -/
def Obligations.StatusIsWrittenOnlyAtTheEnd : Prop := ∀ (i : Instr) (s t : State), exec i s = .next t →
  SameHostSide s t ∧
  (SameStatus s t ∨
    (t.status = .halted ∧ t.faultKind = s.faultKind ∧ t.faultPc = s.faultPc ∧ t.faultInfo = s.faultInfo) ∨
    (t.status = .faulted ∧ t.faultKind ≠ .none ∧ t.faultPc = s.pc))

/-- The advance of the pc (10_state.md section 4), per opcode; a step that raises a fault or ends the run leaves it
(the latter the spec's own D12, log 15). -/
def Obligations.PcAdvancesByTheTable : Prop := ∀ (i : Instr) (s t : State),
  s.status = .running → exec i s = .next t →
  (t.status ≠ .running → t.pc = s.pc) ∧
  (t.status = .running →
    match i with
    | .halt => False
    | .noop => t.pc = s.pc + 1
    | .push _ | .pop _ | .out _ => t.pc = s.pc + 2
    | .inp _ => (∃ b later, s.input = .byte b :: later) → t.pc = s.pc + 2
    | .set _ _ | .not _ _ | .rmem _ _ | .wmem _ _ => t.pc = s.pc + 3
    | .eq _ _ _ | .gt _ _ _ | .add _ _ _ | .mult _ _ _ | .mod _ _ _ | .and _ _ _ | .or _ _ _ => t.pc = s.pc + 4
    | .jmp a | .call a => ∃ g, resolve s a = .ok g ∧ t.pc = g.toWord
    | .jt a b => ∃ c g, resolve s a = .ok c ∧ resolve s b = .ok g ∧ t.pc = if c = 0 then s.pc + 3 else g.toWord
    | .jf a b => ∃ c g, resolve s a = .ok c ∧ resolve s b = .ok g ∧ t.pc = if c = 0 then g.toWord else s.pc + 3
    | .ret => ∃ g st, s.stack = g :: st ∧ t.pc = g.toWord)

/-! ### Faults -/

/-- R132: the first operand invalid for its role is reported, by every instruction that has one; an instruction whose
operands are all valid raises no InvalidOperand. -/
def Obligations.InvalidOperandReportsTheFirst : Prop := ∀ (i : Instr) (s : State), s.status = .running →
  (∀ o, i.firstInvalid = some o → Raises (exec i s) s .invalidOperand o.word) ∧
  (i.wellFormed = true → ∀ t, exec i s = .next t → t.status = .faulted → t.faultKind ≠ .invalidOperand)

/-- R133: an opcode word 22..65535 faults with its value, or is skipped by one word under `lenient`. -/
def Obligations.UnknownOpcodeFaultsOrIsSkipped : Prop := ∀ (s : State), CoreRuns s → s.pc.toNat ≤ 32767 →
  22 ≤ (Memory.read s.mem s.pc.toNat).toNat →
  (s.config.lenient = false → Raises (step s) s .unknownOpcode (Memory.read s.mem s.pc.toNat)) ∧
  (s.config.lenient = true → ∃ t, step s = .next t ∧ MovesPc s t (s.pc + 1))

/-- R134: StackUnderflow has one cause, a `pop` with a valid destination on an empty stack; `ret` there halts. -/
def Obligations.StackUnderflowOnlyByPop : Prop := ∀ (i : Instr) (s : State), s.status = .running →
  (∀ d, i = .pop (.register d) → s.stack = [] → Raises (exec i s) s .stackUnderflow 0) ∧
  (i = .ret → s.stack = [] → ∃ t, exec i s = .next t ∧ t.status = .halted) ∧
  ∀ t, exec i s = .next t → t.status = .faulted → t.faultKind = .stackUnderflow →
    s.stack = [] ∧ ∃ d, i = .pop (.register d)

/-- R136: ModByZero has one cause, a `mod` with valid operands and a resolved divisor 0. -/
def Obligations.ModByZeroOnlyByMod : Prop := ∀ (i : Instr) (s : State), s.status = .running →
  (∀ d b c x, i = .mod (.register d) b c → resolve s b = .ok x → resolve s c = .ok 0 →
    Raises (exec i s) s .modByZero 0) ∧
  ∀ t, exec i s = .next t → t.status = .faulted → t.faultKind = .modByZero →
    ∃ d b c x, i = .mod (.register d) b c ∧ resolve s b = .ok x ∧ resolve s c = .ok 0

/-- The faults of an instruction's own that are the spec's own decisions: AddressOutOfRange only by `call` whose return
address is no Cell (D5), ValueOutOfRange only by `rmem` of a wide word under the default policy (D2), InputExhausted
only by `in` at end of stream under the default policy (D10) (log 16). -/
def Obligations.DecidedFaultsHaveOneCause : Prop := ∀ (i : Instr) (s t : State), s.status = .running →
  exec i s = .next t → t.status = .faulted →
  (t.faultKind = .addressOutOfRange → t.faultInfo = 0 ∧ 32768 ≤ s.pc.toNat + 2 ∧ ∃ a, i = .call a) ∧
  (t.faultKind = .valueOutOfRange → s.config.rmemWide = .fault ∧ 32768 ≤ t.faultInfo.toNat ∧
    ∃ d b ea, i = .rmem (.register d) b ∧ resolve s b = .ok ea ∧ t.faultInfo = Memory.read s.mem ea.toNat) ∧
  (t.faultKind = .inputExhausted → t.faultInfo = 0 ∧ s.config.eofPolicy = .fault ∧
    ∃ d later, i = .inp (.register d) ∧ s.input = .eof :: later)

/-- What fault_info holds after a faulting step (60_exceptions.md section 2; the register is the spec's own D20, the
order of the operands D7, the kind ValueOutOfRange D2, log 16). InvalidOperand: the first operand word, within the
operand count of the opcode at the pc, that is not valid for its role. UnknownOpcode: the opcode word. ValueOutOfRange:
the word that the `rmem` at the pc read at its resolved address. Else 0. -/
def Obligations.FaultInfoHoldsTheOffendingWord : Prop := ∀ (s t : State), CoreRuns s → step s = .next t →
  t.status = .faulted →
  (t.faultKind = .invalidOperand → ∃ i rest k role, decode (fetchWords s) = .ok (i, rest) ∧
    1 ≤ k ∧ k ≤ operandCount (Memory.read s.mem s.pc.toNat).toNat ∧ s.pc.toNat + k ≤ 32767 ∧
    t.faultInfo = Memory.read s.mem (s.pc.toNat + k) ∧
    i.operands[k - 1]? = some (role, .ofWord t.faultInfo) ∧ ¬ AcceptsWord role t.faultInfo ∧
    ∀ j, 1 ≤ j → j < k → ∃ r, i.operands[j - 1]? = some (r, .ofWord (Memory.read s.mem (s.pc.toNat + j))) ∧
      AcceptsWord r (Memory.read s.mem (s.pc.toNat + j))) ∧
  (t.faultKind = .unknownOpcode → s.config.lenient = false ∧
    t.faultInfo = Memory.read s.mem s.pc.toNat ∧ 22 ≤ t.faultInfo.toNat) ∧
  (t.faultKind = .valueOutOfRange → s.config.rmemWide = .fault ∧ 32768 ≤ t.faultInfo.toNat ∧
    ∃ d b ea rest, decode (fetchWords s) = .ok (.rmem (.register d) b, rest) ∧ resolve s b = .ok ea ∧
      t.faultInfo = Memory.read s.mem (effectiveAddress ea)) ∧
  (t.faultKind = .stackUnderflow ∨ t.faultKind = .addressOutOfRange ∨ t.faultKind = .modByZero ∨
    t.faultKind = .inputExhausted → t.faultInfo = 0)

/-- R140: every fault is precise: the machine state, the sink and the source are as before the faulting step. -/
def Obligations.FaultsArePrecise : Prop := ∀ (s t : State), CoreRuns s → step s = .next t → t.status = .faulted →
  ∃ k info, k ≠ .none ∧ FaultEntry s t k info

/-! ### The step -/

/-- A step of the core is the decoded instruction's own step; with a host that yields its turn, the same in the state
with that turn taken off. -/
def Obligations.StepRunsTheDecodedInstruction : Prop := ∀ (s : State) (i : Instr) (rest : List Word),
  s.status = .running → s.cancelRequested = false → decode (fetchWords s) = .ok (i, rest) →
  (s.requests = [] → step s = exec i s) ∧
  ∀ rs, s.requests = .yield :: rs → step s = exec i { s with requests := rs }

/-- The order of fetch and decode (30_encoding.md section 4, the spec's own D3, D4, D7; log 14, 16): the pc past the end, then an
operand word past the end, else the instruction the words from the pc encode. -/
def Obligations.FetchFaultsInOrder : Prop := ∀ (s : State), CoreRuns s →
  (32768 ≤ s.pc.toNat → Raises (step s) s .addressOutOfRange 0) ∧
  (s.pc.toNat ≤ 32767 → (Memory.read s.mem s.pc.toNat).toNat < 22 →
    (32768 ≤ s.pc.toNat + operandCount (Memory.read s.mem s.pc.toNat).toNat →
      Raises (step s) s .addressOutOfRange 0) ∧
    (s.pc.toNat + operandCount (Memory.read s.mem s.pc.toNat).toNat ≤ 32767 →
      ∃ i, step s = exec i s ∧ i.length = 1 + operandCount (Memory.read s.mem s.pc.toNat).toNat ∧
        ∀ k, k < i.length → (encode i)[k]? = some (Memory.read s.mem (s.pc.toNat + k))))

/-- No turn of the core stops: every word at the pc is an instruction or a fault that is taken (30_encoding.md
section 4, dispatch is total), whether the host has nothing pending or yields the turn (log 8). In Idle and after the
end the core takes no step (70_reset_and_hazards.md section 2), and the next state is the same state, but for the yield
taken off (log 4). -/
def Obligations.EveryTurnOfTheCoreGoesOn : Prop := ∀ (s : State),
  (s.requests = [] → (∃ t, step s = .next t) ∧ (s.status ≠ .running → step s = .next s)) ∧
  ∀ rs, s.requests = .yield :: rs →
    (∃ t, step s = .next t) ∧ (s.status ≠ .running → step s = .next { s with requests := rs })

/-- Halted, Faulted and Cancelled are sticky (70_reset_and_hazards.md section 2): however many turns the core gets,
nothing changes. That a turn without a step answers the same state is the model's rendering (log 4). -/
def Obligations.EndedRunsStayAsTheyAre : Prop := ∀ (s : State) (n : Nat), s.ended → s.requests = [] →
  Host.Core.run core n s = .next s

/-- Cancellation (60_exceptions.md section 4; the spec's own D14, log 9): the status becomes Cancelled and nothing else
changes, and only a cancel request does this. -/
def Obligations.CancelKeepsTheState : Prop := ∀ (s : State), s.requests = [] →
  (s.status = .running → s.cancelRequested = true → ∃ t, step s = .next t ∧ t.status = .cancelled ∧
    t.faultKind = s.faultKind ∧ t.faultPc = s.faultPc ∧ t.faultInfo = s.faultInfo ∧
    SameMachineState s t ∧ SameChannels s t ∧ SameHostSide s t) ∧
  ∀ t, s.status ≠ .cancelled → step s = .next t → t.status = .cancelled → s.cancelRequested = true

/-- The moves of the run status (10_state.md section 5, the spec's own D20), and who makes each: to Idle a host reset,
from Idle to Running a host start, from Running to an end the core in a turn of its own (the host has nothing pending or
yields, log 8), to Cancelled only when the host has asked for it (D14, log 9). -/
def Obligations.StatusMovesAsAllowed : Prop := ∀ (s t : State), step s = .next t →
  StatusMove s.status t.status ∧
  (s.status ≠ .idle → t.status = .idle → ∃ rs, s.requests = .reset :: rs) ∧
  (s.status = .idle → t.status = .running → ∃ rs, s.requests = .start :: rs) ∧
  (s.status = .running → t.ended → s.requests = [] ∨ ∃ rs, s.requests = .yield :: rs) ∧
  (s.status = .running → t.status = .cancelled → s.cancelRequested = true)

/-- The invariant of 10_state.md section 8 and the status registers' own: every step keeps it, from every state that
meets it, whatever the host asks for. -/
def Obligations.StepKeepsTheInvariant : Prop := ∀ (s t : State), Inv s → step s = .next t → Inv t

/-- The invariant holds after reset. -/
def Obligations.ResetMeetsTheInvariant : Prop := Inv State.reset

/-- Reproducibility (70_reset_and_hazards.md section 4; 10_state.md section 1): runs from states that agree on the
machine state, the status, the configuration and the answers of the source end in states that agree, and write the
same bytes, whatever the fault registers and the output so far. -/
def Obligations.RunsAreReproducible : Prop := ∀ (n : Nat) (s u t : State), Agree s u → s.requests = [] →
  Host.Core.run core n s = .next t →
  ∃ v bytes, Host.Core.run core n u = .next v ∧ Agree t v ∧
    t.output = s.output ++ bytes ∧ v.output = u.output ++ bytes

/-! ### Reset, load, launch -/

/-- R160: what a reset leaves, from any earlier state, and what State.reset holds. -/
def Obligations.ResetClearsTheMachine : Prop :=
  (∀ t : State, (t = State.reset ∨ ∃ s rs, s.requests = .reset :: rs ∧ step s = .next t) →
    (∀ r, t.reg r = 0) ∧ t.stack = [] ∧ t.pc = 0 ∧ (∀ a, a ≤ 32767 → Memory.read t.mem a = 0) ∧
    t.status = .idle ∧ t.faultKind = .none ∧ t.faultPc = 0 ∧ t.faultInfo = 0) ∧
  ∀ (s : State) (rs : List HostRequest), s.requests = .reset :: rs → ∃ t, step s = .next t

/-- Loading (20_memory.md section 2; refused images are the spec's own D15, log 11): word i of the little-endian
stream at address i and 0 elsewhere, nothing else changed; an odd or too long image stops the launch. -/
def Obligations.LoadPlacesTheImage : Prop := ∀ (image : List Byte) (rs : List HostRequest) (s : State),
  s.status = .idle → s.requests = .load image :: rs →
  (image.length % 2 = 1 → step s = .fault .imageOddLength) ∧
  (image.length % 2 = 0 → 65536 < image.length → step s = .fault .imageTooLong) ∧
  (image.length % 2 = 0 → image.length ≤ 65536 → ∃ m, step s = .next { s with mem := m, requests := rs } ∧
    (∀ i lo hi, image[2 * i]? = some lo → image[2 * i + 1]? = some hi →
      (Memory.read m i).toNat = lo.toNat + 256 * hi.toNat) ∧
    ∀ i, image.length ≤ 2 * i → Memory.read m i = 0)

/-- The launch sequence (70_reset_and_hazards.md section 1): from any state, the host's six transactions leave the
launch state, with the core about to fetch at address 0. The list of transactions is the model's (log 8, 12); that no
cancel request remains is the model's choice (a reset drops it, log 9), and that the output is empty is read from the
spec by inference (attach gives a fresh sink, log 20). -/
def Obligations.LaunchLeavesTheLaunchState : Prop :=
  ∀ (s : State) (ws : List Word) (regs : Vector Cell 8) (cfg : Config) (answers : List ReadAnswer),
  ws.length ≤ 32768 →
  s.requests = [.reset, .load (bytesOfWords ws), .preload regs, .configure cfg, .attach answers, .start] →
  ∃ t, Host.Core.run core 6 s = .next t ∧ t.status = .running ∧ t.pc = 0 ∧ t.stack = [] ∧ t.regs = regs ∧
    (∀ i, Memory.read t.mem i = ws[i]?.getD 0) ∧ t.faultKind = .none ∧ t.faultPc = 0 ∧ t.faultInfo = 0 ∧
    t.config = cfg ∧ t.input = answers ∧ t.output = [] ∧ t.cancelRequested = false ∧ t.requests = []
end

