-- ==== Sys2Proof/Laws/Decode.lean ====
section
/-! SUPPORT. The decoder's and encoder's small laws (spec 30_encoding.md). -/

namespace Sys2Proof

theorem Cell.toWord_toNat (c : Cell) : (Cell.toWord c).toNat = c.toNat := by
  have := c.isLt
  simp only [Cell.toWord, BitVec.toNat_setWidth]
  omega

/-! ### Operand words by class (R63) -/

theorem Operand.ofWord_literal {w : Word} (h : w.toNat < 32768) : Operand.ofWord w = .literal (w.setWidth 15) := by
  rw [Operand.ofWord, if_pos (show w.toNat < regBase from h)]

theorem Operand.ofWord_register {w : Word} {d : Reg} (h : w.toNat = 32768 + d.val) :
    Operand.ofWord w = .register d := by
  have := d.isLt
  have h1 : ¬ w.toNat < regBase := by unfold regBase; omega
  have h2 : w.toNat < invalidBase := by unfold invalidBase; omega
  have h3 : (w.toNat - regBase) % 8 = d.val := by unfold regBase; omega
  rw [Operand.ofWord, if_neg h1, if_pos h2]
  exact congrArg Operand.register (Fin.ext h3)

theorem Operand.ofWord_invalid {w : Word} (h : 32776 ≤ w.toNat) : Operand.ofWord w = .invalid w := by
  have h1 : ¬ w.toNat < regBase := by unfold regBase; omega
  have h2 : ¬ w.toNat < invalidBase := by unfold invalidBase; omega
  rw [Operand.ofWord, if_neg h1, if_neg h2]

/-- The decoder yields only operands that stand under their own class. -/
theorem Operand.ofWord_classified (w : Word) : (Operand.ofWord w).classified = true := by
  unfold Operand.ofWord
  split
  · rfl
  · split
    · rfl
    · simp only [Operand.classified, decide_eq_true_eq]; omega

/-- No bit of an operand word is lost. -/
theorem Operand.word_ofWord (w : Word) : (Operand.ofWord w).word = w := by
  rcases Nat.lt_or_ge w.toNat 32768 with h | h
  · rw [Operand.ofWord_literal h]
    apply BitVec.eq_of_toNat_eq
    rw [Operand.word, Cell.toWord_toNat, BitVec.toNat_setWidth]
    omega
  · rcases Nat.lt_or_ge w.toNat 32776 with h' | h'
    · rw [Operand.ofWord_register (d := ⟨w.toNat - 32768, by omega⟩) (by simp only; omega)]
      apply BitVec.eq_of_toNat_eq
      simp only [Operand.word, regBase, BitVec.toNat_ofNat]
      omega
    · rw [Operand.ofWord_invalid h']; rfl

/-- An operand is read back from its word. -/
theorem Operand.ofWord_word {o : Operand} (h : o.classified = true) : Operand.ofWord o.word = o := by
  cases o with
  | literal c =>
    have hc := c.isLt
    rw [Operand.word, Operand.ofWord_literal (by rw [Cell.toWord_toNat]; omega)]
    congr 1
    apply BitVec.eq_of_toNat_eq
    rw [BitVec.toNat_setWidth, Cell.toWord_toNat]
    omega
  | register r =>
    have := r.isLt
    exact Operand.ofWord_register (by simp only [Operand.word, regBase, BitVec.toNat_ofNat]; omega)
  | invalid w =>
    exact Operand.ofWord_invalid (of_decide_eq_true h)

/-! ### The decoder -/

/-- An opcode word of the table is looked up by its number. -/
theorem decode_cons (op : Word) (ws : List Word) {f : Format} (h : opcodeTable[op.toNat]? = some f) :
    decode (op :: ws) = f.take ws := by
  simp [decode, h]

/-- An opcode word outside the table is rejected by name, whatever follows it (R68). -/
theorem decode_unknown (op : Word) (ws : List Word) (h : 22 ≤ op.toNat) :
    decode (op :: ws) = .error (.unknownOpcode op) := by
  have : opcodeTable[op.toNat]? = none := List.getElem?_eq_none (by simpa [opcodeTable] using h)
  simp [decode, this]

/-- The table has the 22 rows of R67. -/
theorem opcodeTable_length : opcodeTable.length = 22 := rfl

end Sys2Proof
end

