-- ==== Sys2Proof/Laws/Memory.lean ====
section
/-! SUPPORT. The memory's laws: a read after a write (spec 20_memory.md R42, R51), the canonical form that every
operation keeps, and what an image holds (R47). -/

namespace Sys2Proof.Machine

/-! ### cons -/

theorem Memory.read_cons (a : Nat) (w : Word) (m : Memory) (b : Nat)
    (h : b = a → w = unlisted → Memory.read m b = unlisted) :
    Memory.read (Memory.cons a w m) b = if b = a then w else Memory.read m b := by
  unfold Memory.cons
  split
  · next hw =>
    split
    · next hb => rw [h hb hw, hw]
    · rfl
  · rfl

/-! ### The canonical form -/

theorem Memory.wfFrom_mono {lo lo' : Nat} {m : Memory} (hle : lo' ≤ lo) (h : Memory.wfFrom lo m = true) :
    Memory.wfFrom lo' m = true := by
  cases m with
  | nil => rfl
  | cons p m =>
    simp only [Memory.wfFrom, memCells, Bool.and_eq_true, decide_eq_true_eq] at h ⊢
    exact ⟨⟨⟨by omega, h.1.1.2⟩, h.1.2⟩, h.2⟩

theorem Memory.cons_wfFrom {lo a : Nat} {w : Word} {m : Memory} (hlo : lo ≤ a) (ha : a < 32768)
    (h : Memory.wfFrom (a + 1) m = true) : Memory.wfFrom lo (Memory.cons a w m) = true := by
  unfold Memory.cons
  split
  · exact Memory.wfFrom_mono (by omega) h
  · next hw => simp [Memory.wfFrom, memCells, hlo, ha, hw, h]

/-- An address below every listed one reads as unlisted. -/
theorem Memory.read_below {lo a : Nat} {m : Memory} (h : Memory.wfFrom lo m = true) (ha : a < lo) :
    Memory.read m a = unlisted := by
  induction m generalizing lo with
  | nil => rfl
  | cons p m ih =>
    obtain ⟨b, w⟩ := p
    simp only [Memory.wfFrom, memCells, Bool.and_eq_true, decide_eq_true_eq] at h
    have hne : a ≠ b := by omega
    simp only [Memory.read, hne, if_false]
    exact ih h.2 (by omega)

/-- No address outside 0..32767 is listed. -/
theorem Memory.read_outside {lo a : Nat} {m : Memory} (h : Memory.wfFrom lo m = true) (ha : 32768 ≤ a) :
    Memory.read m a = unlisted := by
  induction m generalizing lo with
  | nil => rfl
  | cons p m ih =>
    obtain ⟨b, w⟩ := p
    simp only [Memory.wfFrom, memCells, Bool.and_eq_true, decide_eq_true_eq] at h
    have hne : a ≠ b := by omega
    simp only [Memory.read, hne, if_false]
    exact ih h.2

theorem Memory.write_wfFrom {lo a : Nat} {w : Word} {m : Memory} (hlo : lo ≤ a) (ha : a < 32768)
    (h : Memory.wfFrom lo m = true) : Memory.wfFrom lo (Memory.write m a w) = true := by
  induction m generalizing lo with
  | nil => exact Memory.cons_wfFrom hlo ha rfl
  | cons p m ih =>
    obtain ⟨b, x⟩ := p
    have h' := h
    simp only [Memory.wfFrom, memCells, Bool.and_eq_true, decide_eq_true_eq] at h
    unfold Memory.write
    split
    · next hlt =>
      refine Memory.cons_wfFrom hlo ha ?_
      simp [Memory.wfFrom, h]
      omega
    · split
      · next hab => exact Memory.cons_wfFrom hlo ha (hab ▸ h.2)
      · simp [Memory.wfFrom, h, ih (by omega : b + 1 ≤ a) h.2]

/-- Every write inside the address space keeps the canonical form. -/
theorem Memory.write_wf {m : Memory} {a : Nat} (w : Word) (ha : a < 32768) (h : Memory.wf m = true) :
    Memory.wf (Memory.write m a w) = true :=
  Memory.write_wfFrom (Nat.zero_le a) ha h

theorem Memory.read_write_from {lo a : Nat} {w : Word} {m : Memory} (h : Memory.wfFrom lo m = true) (b : Nat) :
    Memory.read (Memory.write m a w) b = if b = a then w else Memory.read m b := by
  induction m generalizing lo with
  | nil => exact Memory.read_cons a w [] b fun _ _ => rfl
  | cons p m ih =>
    obtain ⟨c, x⟩ := p
    have h' := h
    simp only [Memory.wfFrom, memCells, Bool.and_eq_true, decide_eq_true_eq] at h
    unfold Memory.write
    split
    · next hlt =>
      refine Memory.read_cons a w _ b fun hba _ => ?_
      have hne : b ≠ c := by omega
      simp only [Memory.read, hne, if_false]
      exact Memory.read_below h.2 (by omega)
    · split
      · next hac =>
        rw [Memory.read_cons a w m b fun hba _ => Memory.read_below h.2 (by omega)]
        simp only [Memory.read, hac]
        split <;> rfl
      · next hac =>
        simp only [Memory.read]
        rw [ih h.2]
        by_cases hbc : b = c
        · have : b ≠ a := by omega
          simp [hbc, show c ≠ a by omega]
        · simp [hbc]

/-- A read after a write: the word written at its address, every other address as before (R42, R51). -/
theorem Memory.read_write {m : Memory} (h : Memory.wf m = true) (a : Nat) (w : Word) (b : Nat) :
    Memory.read (Memory.write m a w) b = if b = a then w else Memory.read m b :=
  Memory.read_write_from h b

/-! ### Placing words -/

theorem Memory.writeWords_wf {m : Memory} (a : Nat) (ws : List Word) (h : Memory.wf m = true) :
    Memory.wf (Memory.writeWords m a ws) = true := by
  induction ws generalizing m a with
  | nil => exact h
  | cons w ws ih =>
    unfold Memory.writeWords
    split
    · next ha => exact ih _ (Memory.write_wf w ha h)
    · exact h

theorem Memory.ofWords_wfFrom (a : Nat) (ws : List Word) (h : a + ws.length ≤ 32768) :
    Memory.wfFrom a (Memory.ofWords a ws) = true := by
  induction ws generalizing a with
  | nil => rfl
  | cons w ws ih =>
    simp only [List.length_cons] at h
    exact Memory.cons_wfFrom (Nat.le_refl a) (by omega) (ih (a + 1) (by omega))

/-- A loaded image is in canonical form. -/
theorem Memory.ofWords_wf (ws : List Word) (h : ws.length ≤ 32768) :
    Memory.wf (Memory.ofWords 0 ws) = true :=
  Memory.ofWords_wfFrom 0 ws (by omega)

theorem Memory.read_ofWords_below (a : Nat) (ws : List Word) {b : Nat} (h : b < a) :
    Memory.read (Memory.ofWords a ws) b = unlisted := by
  induction ws generalizing a with
  | nil => rfl
  | cons w ws ih =>
    rw [Memory.ofWords, Memory.read_cons _ _ _ _ fun hb _ => absurd hb (by omega)]
    simp [show b ≠ a by omega, ih (a + 1) (by omega)]

/-- Word i of an image stands at the i-th address from `a`; past the image memory reads as unlisted (R47). -/
theorem Memory.read_ofWords (a : Nat) (ws : List Word) (i : Nat) :
    Memory.read (Memory.ofWords a ws) (a + i) = ws[i]?.getD unlisted := by
  induction ws generalizing a i with
  | nil => rfl
  | cons w ws ih =>
    rw [Memory.ofWords, Memory.read_cons _ _ _ _ fun hb _ => Memory.read_ofWords_below _ _ (by omega)]
    cases i with
    | zero => simp
    | succ i =>
      have := ih (a + 1) i
      rw [show a + 1 + i = a + (i + 1) by omega] at this
      simp [this]

/-! ### Fetching -/

/-- A window is as long as asked, or as memory reaches. -/
theorem Memory.window_length (m : Memory) (a n : Nat) : (Memory.window m a n).length = min n (32768 - a) := by
  induction n generalizing a with
  | zero => simp [Memory.window]
  | succ n ih =>
    unfold Memory.window
    split
    · next ha =>
      replace ha : a < 32768 := ha
      simp only [List.length_cons, ih]; omega
    · next ha =>
      replace ha : ¬ a < 32768 := ha
      simp only [List.length_nil]; omega

/-- The k-th word of a window is the word at the k-th address. -/
theorem Memory.window_get (m : Memory) (a n k : Nat) (hk : k < n) (ha : a + k < 32768) :
    (Memory.window m a n)[k]? = some (Memory.read m (a + k)) := by
  induction n generalizing a k with
  | zero => omega
  | succ n ih =>
    unfold Memory.window
    rw [if_pos (show a < 32768 by omega)]
    cases k with
    | zero => simp
    | succ k =>
      have := ih (a + 1) k (by omega) (by omega)
      simpa [Nat.add_comm, Nat.add_left_comm] using this

end Sys2Proof.Machine
end

