-- ==== Sys2Proof/Laws/State.lean ====
section
/-! SUPPORT. What each state update does to each field, by rfl, and the register file's laws. -/

namespace Sys2Proof.Machine

variable (s : State)

/-! ### Updates that are another update -/

@[simp] theorem advance_eq (n : Nat) : s.advance n = s.setPc (s.pc + BitVec.ofNat 16 n) := rfl
@[simp] theorem jumpTo_eq (t : Cell) : s.jumpTo t = s.setPc t.toWord := rfl
@[simp] theorem push_eq (v : Cell) : s.push v = s.setStack (v :: s.stack) := rfl

/-! ### setReg -/

@[simp] theorem setReg_regs (r : Reg) (v : Cell) : (s.setReg r v).regs = s.regs.set r v := rfl
@[simp] theorem setReg_pc (r : Reg) (v : Cell) : (s.setReg r v).pc = s.pc := rfl
@[simp] theorem setReg_stack (r : Reg) (v : Cell) : (s.setReg r v).stack = s.stack := rfl
@[simp] theorem setReg_mem (r : Reg) (v : Cell) : (s.setReg r v).mem = s.mem := rfl
@[simp] theorem setReg_status (r : Reg) (v : Cell) : (s.setReg r v).status = s.status := rfl
@[simp] theorem setReg_faultKind (r : Reg) (v : Cell) : (s.setReg r v).faultKind = s.faultKind := rfl
@[simp] theorem setReg_faultPc (r : Reg) (v : Cell) : (s.setReg r v).faultPc = s.faultPc := rfl
@[simp] theorem setReg_faultInfo (r : Reg) (v : Cell) : (s.setReg r v).faultInfo = s.faultInfo := rfl
@[simp] theorem setReg_config (r : Reg) (v : Cell) : (s.setReg r v).config = s.config := rfl
@[simp] theorem setReg_cancelRequested (r : Reg) (v : Cell) : (s.setReg r v).cancelRequested = s.cancelRequested := rfl
@[simp] theorem setReg_input (r : Reg) (v : Cell) : (s.setReg r v).input = s.input := rfl
@[simp] theorem setReg_output (r : Reg) (v : Cell) : (s.setReg r v).output = s.output := rfl
@[simp] theorem setReg_requests (r : Reg) (v : Cell) : (s.setReg r v).requests = s.requests := rfl

/-! ### setPc -/

@[simp] theorem setPc_regs (t : BitVec 16) : (s.setPc t).regs = s.regs := rfl
@[simp] theorem setPc_pc (t : BitVec 16) : (s.setPc t).pc = t := rfl
@[simp] theorem setPc_stack (t : BitVec 16) : (s.setPc t).stack = s.stack := rfl
@[simp] theorem setPc_mem (t : BitVec 16) : (s.setPc t).mem = s.mem := rfl
@[simp] theorem setPc_status (t : BitVec 16) : (s.setPc t).status = s.status := rfl
@[simp] theorem setPc_faultKind (t : BitVec 16) : (s.setPc t).faultKind = s.faultKind := rfl
@[simp] theorem setPc_faultPc (t : BitVec 16) : (s.setPc t).faultPc = s.faultPc := rfl
@[simp] theorem setPc_faultInfo (t : BitVec 16) : (s.setPc t).faultInfo = s.faultInfo := rfl
@[simp] theorem setPc_config (t : BitVec 16) : (s.setPc t).config = s.config := rfl
@[simp] theorem setPc_cancelRequested (t : BitVec 16) : (s.setPc t).cancelRequested = s.cancelRequested := rfl
@[simp] theorem setPc_input (t : BitVec 16) : (s.setPc t).input = s.input := rfl
@[simp] theorem setPc_output (t : BitVec 16) : (s.setPc t).output = s.output := rfl
@[simp] theorem setPc_requests (t : BitVec 16) : (s.setPc t).requests = s.requests := rfl
@[simp] theorem setPc_reg (t : BitVec 16) (q : Reg) : (s.setPc t).reg q = s.reg q := rfl

/-! ### setStack -/

@[simp] theorem setStack_regs (st : List Cell) : (s.setStack st).regs = s.regs := rfl
@[simp] theorem setStack_pc (st : List Cell) : (s.setStack st).pc = s.pc := rfl
@[simp] theorem setStack_stack (st : List Cell) : (s.setStack st).stack = st := rfl
@[simp] theorem setStack_mem (st : List Cell) : (s.setStack st).mem = s.mem := rfl
@[simp] theorem setStack_status (st : List Cell) : (s.setStack st).status = s.status := rfl
@[simp] theorem setStack_faultKind (st : List Cell) : (s.setStack st).faultKind = s.faultKind := rfl
@[simp] theorem setStack_faultPc (st : List Cell) : (s.setStack st).faultPc = s.faultPc := rfl
@[simp] theorem setStack_faultInfo (st : List Cell) : (s.setStack st).faultInfo = s.faultInfo := rfl
@[simp] theorem setStack_config (st : List Cell) : (s.setStack st).config = s.config := rfl
@[simp] theorem setStack_cancelRequested (st : List Cell) : (s.setStack st).cancelRequested = s.cancelRequested := rfl
@[simp] theorem setStack_input (st : List Cell) : (s.setStack st).input = s.input := rfl
@[simp] theorem setStack_output (st : List Cell) : (s.setStack st).output = s.output := rfl
@[simp] theorem setStack_requests (st : List Cell) : (s.setStack st).requests = s.requests := rfl
@[simp] theorem setStack_reg (st : List Cell) (q : Reg) : (s.setStack st).reg q = s.reg q := rfl

/-! ### setMem -/

@[simp] theorem setMem_regs (m : Memory) : (s.setMem m).regs = s.regs := rfl
@[simp] theorem setMem_pc (m : Memory) : (s.setMem m).pc = s.pc := rfl
@[simp] theorem setMem_stack (m : Memory) : (s.setMem m).stack = s.stack := rfl
@[simp] theorem setMem_mem (m : Memory) : (s.setMem m).mem = m := rfl
@[simp] theorem setMem_status (m : Memory) : (s.setMem m).status = s.status := rfl
@[simp] theorem setMem_faultKind (m : Memory) : (s.setMem m).faultKind = s.faultKind := rfl
@[simp] theorem setMem_faultPc (m : Memory) : (s.setMem m).faultPc = s.faultPc := rfl
@[simp] theorem setMem_faultInfo (m : Memory) : (s.setMem m).faultInfo = s.faultInfo := rfl
@[simp] theorem setMem_config (m : Memory) : (s.setMem m).config = s.config := rfl
@[simp] theorem setMem_cancelRequested (m : Memory) : (s.setMem m).cancelRequested = s.cancelRequested := rfl
@[simp] theorem setMem_input (m : Memory) : (s.setMem m).input = s.input := rfl
@[simp] theorem setMem_output (m : Memory) : (s.setMem m).output = s.output := rfl
@[simp] theorem setMem_requests (m : Memory) : (s.setMem m).requests = s.requests := rfl
@[simp] theorem setMem_reg (m : Memory) (q : Reg) : (s.setMem m).reg q = s.reg q := rfl

/-! ### setStatus -/

@[simp] theorem setStatus_regs (st : RunStatus) : (s.setStatus st).regs = s.regs := rfl
@[simp] theorem setStatus_pc (st : RunStatus) : (s.setStatus st).pc = s.pc := rfl
@[simp] theorem setStatus_stack (st : RunStatus) : (s.setStatus st).stack = s.stack := rfl
@[simp] theorem setStatus_mem (st : RunStatus) : (s.setStatus st).mem = s.mem := rfl
@[simp] theorem setStatus_status (st : RunStatus) : (s.setStatus st).status = st := rfl
@[simp] theorem setStatus_faultKind (st : RunStatus) : (s.setStatus st).faultKind = s.faultKind := rfl
@[simp] theorem setStatus_faultPc (st : RunStatus) : (s.setStatus st).faultPc = s.faultPc := rfl
@[simp] theorem setStatus_faultInfo (st : RunStatus) : (s.setStatus st).faultInfo = s.faultInfo := rfl
@[simp] theorem setStatus_config (st : RunStatus) : (s.setStatus st).config = s.config := rfl
@[simp] theorem setStatus_cancelRequested (st : RunStatus) : (s.setStatus st).cancelRequested = s.cancelRequested := rfl
@[simp] theorem setStatus_input (st : RunStatus) : (s.setStatus st).input = s.input := rfl
@[simp] theorem setStatus_output (st : RunStatus) : (s.setStatus st).output = s.output := rfl
@[simp] theorem setStatus_requests (st : RunStatus) : (s.setStatus st).requests = s.requests := rfl
@[simp] theorem setStatus_reg (st : RunStatus) (q : Reg) : (s.setStatus st).reg q = s.reg q := rfl

/-! ### setInput -/

@[simp] theorem setInput_regs (l : List ReadAnswer) : (s.setInput l).regs = s.regs := rfl
@[simp] theorem setInput_pc (l : List ReadAnswer) : (s.setInput l).pc = s.pc := rfl
@[simp] theorem setInput_stack (l : List ReadAnswer) : (s.setInput l).stack = s.stack := rfl
@[simp] theorem setInput_mem (l : List ReadAnswer) : (s.setInput l).mem = s.mem := rfl
@[simp] theorem setInput_status (l : List ReadAnswer) : (s.setInput l).status = s.status := rfl
@[simp] theorem setInput_faultKind (l : List ReadAnswer) : (s.setInput l).faultKind = s.faultKind := rfl
@[simp] theorem setInput_faultPc (l : List ReadAnswer) : (s.setInput l).faultPc = s.faultPc := rfl
@[simp] theorem setInput_faultInfo (l : List ReadAnswer) : (s.setInput l).faultInfo = s.faultInfo := rfl
@[simp] theorem setInput_config (l : List ReadAnswer) : (s.setInput l).config = s.config := rfl
@[simp] theorem setInput_cancelRequested (l : List ReadAnswer) : (s.setInput l).cancelRequested = s.cancelRequested := rfl
@[simp] theorem setInput_input (l : List ReadAnswer) : (s.setInput l).input = l := rfl
@[simp] theorem setInput_output (l : List ReadAnswer) : (s.setInput l).output = s.output := rfl
@[simp] theorem setInput_requests (l : List ReadAnswer) : (s.setInput l).requests = s.requests := rfl
@[simp] theorem setInput_reg (l : List ReadAnswer) (q : Reg) : (s.setInput l).reg q = s.reg q := rfl

/-! ### writeChar -/

@[simp] theorem writeChar_regs (b : Byte) : (s.writeChar b).regs = s.regs := rfl
@[simp] theorem writeChar_pc (b : Byte) : (s.writeChar b).pc = s.pc := rfl
@[simp] theorem writeChar_stack (b : Byte) : (s.writeChar b).stack = s.stack := rfl
@[simp] theorem writeChar_mem (b : Byte) : (s.writeChar b).mem = s.mem := rfl
@[simp] theorem writeChar_status (b : Byte) : (s.writeChar b).status = s.status := rfl
@[simp] theorem writeChar_faultKind (b : Byte) : (s.writeChar b).faultKind = s.faultKind := rfl
@[simp] theorem writeChar_faultPc (b : Byte) : (s.writeChar b).faultPc = s.faultPc := rfl
@[simp] theorem writeChar_faultInfo (b : Byte) : (s.writeChar b).faultInfo = s.faultInfo := rfl
@[simp] theorem writeChar_config (b : Byte) : (s.writeChar b).config = s.config := rfl
@[simp] theorem writeChar_cancelRequested (b : Byte) : (s.writeChar b).cancelRequested = s.cancelRequested := rfl
@[simp] theorem writeChar_input (b : Byte) : (s.writeChar b).input = s.input := rfl
@[simp] theorem writeChar_output (b : Byte) : (s.writeChar b).output = s.output ++ [b] := rfl
@[simp] theorem writeChar_requests (b : Byte) : (s.writeChar b).requests = s.requests := rfl
@[simp] theorem writeChar_reg (b : Byte) (q : Reg) : (s.writeChar b).reg q = s.reg q := rfl

/-! ### setRequests -/

@[simp] theorem setRequests_regs (l : List HostRequest) : (s.setRequests l).regs = s.regs := rfl
@[simp] theorem setRequests_pc (l : List HostRequest) : (s.setRequests l).pc = s.pc := rfl
@[simp] theorem setRequests_stack (l : List HostRequest) : (s.setRequests l).stack = s.stack := rfl
@[simp] theorem setRequests_mem (l : List HostRequest) : (s.setRequests l).mem = s.mem := rfl
@[simp] theorem setRequests_status (l : List HostRequest) : (s.setRequests l).status = s.status := rfl
@[simp] theorem setRequests_faultKind (l : List HostRequest) : (s.setRequests l).faultKind = s.faultKind := rfl
@[simp] theorem setRequests_faultPc (l : List HostRequest) : (s.setRequests l).faultPc = s.faultPc := rfl
@[simp] theorem setRequests_faultInfo (l : List HostRequest) : (s.setRequests l).faultInfo = s.faultInfo := rfl
@[simp] theorem setRequests_config (l : List HostRequest) : (s.setRequests l).config = s.config := rfl
@[simp] theorem setRequests_cancelRequested (l : List HostRequest) : (s.setRequests l).cancelRequested = s.cancelRequested := rfl
@[simp] theorem setRequests_input (l : List HostRequest) : (s.setRequests l).input = s.input := rfl
@[simp] theorem setRequests_output (l : List HostRequest) : (s.setRequests l).output = s.output := rfl
@[simp] theorem setRequests_requests (l : List HostRequest) : (s.setRequests l).requests = l := rfl
@[simp] theorem setRequests_reg (l : List HostRequest) (q : Reg) : (s.setRequests l).reg q = s.reg q := rfl

/-! ### recordFault -/

@[simp] theorem recordFault_regs (k : FaultKind) (w : Word) : (s.recordFault k w).regs = s.regs := rfl
@[simp] theorem recordFault_pc (k : FaultKind) (w : Word) : (s.recordFault k w).pc = s.pc := rfl
@[simp] theorem recordFault_stack (k : FaultKind) (w : Word) : (s.recordFault k w).stack = s.stack := rfl
@[simp] theorem recordFault_mem (k : FaultKind) (w : Word) : (s.recordFault k w).mem = s.mem := rfl
@[simp] theorem recordFault_status (k : FaultKind) (w : Word) : (s.recordFault k w).status = .faulted := rfl
@[simp] theorem recordFault_faultKind (k : FaultKind) (w : Word) : (s.recordFault k w).faultKind = k := rfl
@[simp] theorem recordFault_faultPc (k : FaultKind) (w : Word) : (s.recordFault k w).faultPc = s.pc := rfl
@[simp] theorem recordFault_faultInfo (k : FaultKind) (w : Word) : (s.recordFault k w).faultInfo = w := rfl
@[simp] theorem recordFault_config (k : FaultKind) (w : Word) : (s.recordFault k w).config = s.config := rfl
@[simp] theorem recordFault_cancelRequested (k : FaultKind) (w : Word) : (s.recordFault k w).cancelRequested = s.cancelRequested := rfl
@[simp] theorem recordFault_input (k : FaultKind) (w : Word) : (s.recordFault k w).input = s.input := rfl
@[simp] theorem recordFault_output (k : FaultKind) (w : Word) : (s.recordFault k w).output = s.output := rfl
@[simp] theorem recordFault_requests (k : FaultKind) (w : Word) : (s.recordFault k w).requests = s.requests := rfl
@[simp] theorem recordFault_reg (k : FaultKind) (w : Word) (q : Reg) : (s.recordFault k w).reg q = s.reg q := rfl

/-! ### The register file (R12, R14) -/

/-- A register write changes that register and no other. -/
theorem setReg_reg (r q : Reg) (v : Cell) : (s.setReg r v).reg q = if q = r then v else s.reg q := by
  simp [State.reg, State.setReg, Vector.getElem_set, Fin.ext_iff, eq_comm]

@[simp] theorem setReg_reg_same (r : Reg) (v : Cell) : (s.setReg r v).reg r = v := by
  simp [setReg_reg]

@[simp] theorem setReg_reg_other {r q : Reg} (v : Cell) (h : q ≠ r) : (s.setReg r v).reg q = s.reg q := by
  simp [setReg_reg, h]

/-- Every register is 0 after reset (R30). -/
theorem reset_reg (r : Reg) : State.reset.reg r = 0 := by
  simp [State.reg, State.reset]

end Sys2Proof.Machine
end

