-- ==== Sys2Proof/Laws/Ops.lean ====
section
/-! SUPPORT. What each shared operation can do, said once: the lemmas to cite instead of unfolding the operations. -/

namespace Sys2Proof.Machine

/-! ### Faults and halting -/

/-- Taking a fault writes the four status registers and nothing else (R140, R142). -/
theorem raise_raises (k : FaultKind) (info : Word) (s : State) : Raises (raise k info s) s k info :=
  ⟨s.recordFault k info, rfl, rfl, rfl, rfl, rfl, ⟨fun _ => rfl, rfl, rfl, fun _ => rfl⟩, ⟨rfl, rfl⟩, rfl, rfl, rfl⟩

/-- Halting writes the status and nothing else. -/
theorem halt_haltsRun (s : State) : HaltsRun (halt s) s :=
  ⟨s.setStatus .halted, rfl, rfl, rfl, rfl, rfl, ⟨fun _ => rfl, rfl, rfl, fun _ => rfl⟩, ⟨rfl, rfl⟩, rfl, rfl, rfl⟩

theorem raise_next {k : FaultKind} {info : Word} {s t : State} (h : raise k info s = .next t) :
    t = s.recordFault k info := by
  cases h; rfl

theorem halt_next {s t : State} (h : halt s = .next t) : t = s.setStatus .halted := by
  cases h; rfl

/-! ### Operands -/

theorem resolve_literalWord {w : Word} (s : State) (h : w.toNat < 32768) :
    resolve s (.ofWord w) = .ok (w.setWidth 15) := by
  rw [Operand.ofWord_literal h]; rfl

theorem resolve_registerWord {w : Word} {d : Reg} (s : State) (h : w.toNat = 32768 + d.val) :
    resolve s (.ofWord w) = .ok (s.reg d) := by
  rw [Operand.ofWord_register h]; rfl

/-- A value position raises InvalidOperand on exactly the words R64 names. -/
theorem withValue_invalidWord {w : Word} (s : State) (k : Cell → Result) (h : ¬ IsValueWord w) :
    withValue (.ofWord w) s k = raise .invalidOperand w s := by
  rw [Operand.ofWord_invalid (by unfold IsValueWord at h; omega)]; rfl

theorem withValue_resolved {o : Operand} {s : State} {v : Cell} (k : Cell → Result) (h : resolve s o = .ok v) :
    withValue o s k = k v := by
  simp only [withValue, h]

/-- A value word has a value. -/
theorem resolve_valueWord {w : Word} (s : State) (h : IsValueWord w) : ∃ v, resolve s (.ofWord w) = .ok v := by
  rcases Nat.lt_or_ge w.toNat 32768 with hl | hl
  · exact ⟨_, resolve_literalWord s hl⟩
  · unfold IsValueWord at h
    exact ⟨_, resolve_registerWord (d := ⟨w.toNat - 32768, by omega⟩) s (by simp only; omega)⟩

theorem withDst_registerWord {w : Word} {d : Reg} (s : State) (k : Reg → Result) (h : w.toNat = 32768 + d.val) :
    withDst (.ofWord w) s k = k d := by
  rw [Operand.ofWord_register h]; rfl

/-- A destination word names a register. -/
theorem dstWord_register {w : Word} (h : IsDstWord w) : ∃ d : Reg, w.toNat = 32768 + d.val := by
  obtain ⟨h1, h2⟩ := h
  exact ⟨⟨w.toNat - 32768, by omega⟩, by simp only; omega⟩

/-- A destination position raises InvalidOperand on every word that names no register (R65). -/
theorem withDst_otherWord {w : Word} (s : State) (k : Reg → Result) (h : ¬ IsDstWord w) :
    withDst (.ofWord w) s k = raise .invalidOperand w s := by
  unfold IsDstWord at h
  rcases Nat.lt_or_ge w.toNat 32768 with hl | hl
  · have hw : (Operand.literal (w.setWidth 15)).word = w := by
      rw [← Operand.ofWord_literal hl]; exact Operand.word_ofWord w
    rw [Operand.ofWord_literal hl]
    simp only [withDst, regidx, hw]
  · rw [Operand.ofWord_invalid (by omega)]; rfl

/-- What going on with a value can answer. -/
theorem withValue_next {o : Operand} {s t : State} {k : Cell → Result} (h : withValue o s k = .next t) :
    (∃ v, resolve s o = .ok v ∧ k v = .next t) ∨
      ∃ w, resolve s o = .error w ∧ t = s.recordFault .invalidOperand w := by
  unfold withValue at h
  cases hr : resolve s o with
  | ok v => rw [hr] at h; exact .inl ⟨v, rfl, h⟩
  | error w => rw [hr] at h; exact .inr ⟨w, rfl, raise_next h⟩

/-- What going on with a destination can answer. -/
theorem withDst_next {o : Operand} {s t : State} {k : Reg → Result} (h : withDst o s k = .next t) :
    (∃ d, o = .register d ∧ k d = .next t) ∨
      ∃ w, regidx o = .error w ∧ t = s.recordFault .invalidOperand w := by
  cases o with
  | literal c => exact .inr ⟨_, rfl, raise_next h⟩
  | register r => exact .inl ⟨r, rfl, h⟩
  | invalid w => exact .inr ⟨w, rfl, raise_next h⟩

/-- The end of a register-writing instruction writes its register, advances the pc, and does nothing else. -/
theorem writeAndAdvance_writes (d : Reg) (v : Cell) (len : Nat) (s : State) :
    ∃ t, writeAndAdvance d v len s = .next t ∧ WritesRegister s t d v.toNat len :=
  ⟨_, rfl, { value := by simp, others := fun r hr => by simp [hr], pc := rfl, stack := rfl, memory := fun _ => rfl,
             status := ⟨rfl, rfl, rfl, rfl⟩, channels := ⟨rfl, rfl⟩, host := ⟨rfl, rfl, rfl⟩ }⟩

/-- Moving the pc does nothing else. -/
theorem setPc_moves (s : State) (p : BitVec 16) : MovesPc s (s.setPc p) p :=
  { regs := fun _ => rfl, pc := rfl, stack := rfl, memory := fun _ => rfl, status := ⟨rfl, rfl, rfl, rfl⟩,
    channels := ⟨rfl, rfl⟩, host := ⟨rfl, rfl, rfl⟩ }

/-- Changing the stack and moving the pc does nothing else. -/
theorem setStack_setPc_moves (s : State) (st : List Cell) (p : BitVec 16) :
    MovesStack s ((s.setStack st).setPc p) st p :=
  { regs := fun _ => rfl, pc := rfl, stack := rfl, memory := fun _ => rfl, status := ⟨rfl, rfl, rfl, rfl⟩,
    channels := ⟨rfl, rfl⟩, host := ⟨rfl, rfl, rfl⟩ }

/-- What a three-operand register instruction can answer. -/
theorem binaryOp_next {f : Cell → Cell → Cell} {a b c : Operand} {s t : State} (h : binaryOp f a b c s = .next t) :
    (∃ d x y, a = .register d ∧ resolve s b = .ok x ∧ resolve s c = .ok y ∧
      t = (s.setReg d (f x y)).setPc (s.pc + BitVec.ofNat 16 4)) ∨
      ∃ w, t = s.recordFault .invalidOperand w := by
  rcases withDst_next h with ⟨d, rfl, h⟩ | ⟨w, -, rfl⟩
  · rcases withValue_next h with ⟨x, hx, h⟩ | ⟨w, -, rfl⟩
    · rcases withValue_next h with ⟨y, hy, h⟩ | ⟨w, -, rfl⟩
      · cases h; exact .inl ⟨d, x, y, rfl, hx, hy, rfl⟩
      · exact .inr ⟨w, rfl⟩
    · exact .inr ⟨w, rfl⟩
  · exact .inr ⟨w, rfl⟩

/-! ### Memory accesses -/

theorem withMemRead_inside {addr : Nat} (s : State) (k : Word → Result) (h : addr < 32768) :
    withMemRead addr s k = k (Memory.read s.mem addr) := by
  rw [withMemRead, if_pos (show addr < memCells from h)]

theorem withMemWrite_inside {addr : Nat} (v : Cell) (s : State) (k : State → Result) (h : addr < 32768) :
    withMemWrite addr v s k = k (s.setMem (Memory.write s.mem addr v.toWord)) := by
  rw [withMemWrite, if_pos (show addr < memCells from h)]

/-- An effective address is always inside memory, so the AddressOutOfRange check of rmem and wmem is dead (R49). -/
theorem effectiveAddress_inside (ea : Cell) : effectiveAddress ea < 32768 := ea.isLt

/-! ### The input source -/

/-- What `read_char` can do to the state: only the answers still to come change. -/
theorem readChar_cases (s : State) :
    (s.input = [] ∧ readChar s = (.blocked, s)) ∨
      (∃ b rest, s.input = .byte b :: rest ∧ readChar s = (.byte b, s.setInput rest)) ∨
      (∃ rest, s.input = .blocked :: rest ∧ readChar s = (.blocked, s.setInput rest)) ∨
      (∃ rest, s.input = .eof :: rest ∧ readChar s = (.eof, s)) := by
  unfold readChar
  rcases s.input with _ | ⟨_ | _ | _, rest⟩
  · exact .inl ⟨rfl, rfl⟩
  · exact .inr (.inl ⟨_, _, rfl, rfl⟩)
  · exact .inr (.inr (.inl ⟨_, rfl, rfl⟩))
  · exact .inr (.inr (.inr ⟨_, rfl, rfl⟩))

/-! ### Decoding lengths -/

theorem Format.take_length {f : Format} {ws rest : List Word} {i : Instr} (h : f.take ws = .ok (i, rest)) :
    rest.length ≤ ws.length := by
  rcases f with _ | _ | _ | _ <;> rcases ws with _ | ⟨_, _ | ⟨_, _ | ⟨_, _⟩⟩⟩ <;>
    simp [Format.take] at h <;> obtain ⟨-, rfl⟩ := h <;> (simp only [List.length_cons, List.length_nil]; omega)

/-- What fetching gives is as long as the longest instruction, or as memory reaches. -/
theorem fetchWords_length (s : State) : (fetchWords s).length = min 4 (32768 - s.pc.toNat) :=
  Memory.window_length s.mem s.pc.toNat 4

/-! ### Turns -/

/-- With the core to run and an instruction decoded, the turn is that instruction's. -/
theorem nextTurn_run {s : State} {i : Instr} {rest : List Word} (h : CoreRuns s)
    (hd : decode (fetchWords s) = .ok (i, rest)) : nextTurn s = .run i s := by
  obtain ⟨h1, h2, h3⟩ := h
  simp [nextTurn, coreTurn, h1, h2, h3, hd]

/-- With the core to run and no instruction decoded, the turn is the decoder's error. -/
theorem nextTurn_error {s : State} {e : DecodeError} (h : CoreRuns s) (hd : decode (fetchWords s) = .error e) :
    nextTurn s = .done (onDecodeError e s) := by
  obtain ⟨h1, h2, h3⟩ := h
  simp [nextTurn, coreTurn, h1, h2, h3, hd]

/-- What a host write can answer. -/
theorem whileIdle_next {s t : State} {o : Result} (h : whileIdle s o = .next t) : s.status = .idle ∧ o = .next t := by
  unfold whileIdle at h
  cases hs : s.status <;> rw [hs] at h <;> first | exact ⟨rfl, h⟩ | cases h

/-- What a load can answer. -/
theorem serveLoad_next {image : List Byte} {s t : State} (h : serveLoad image s = .next t) :
    ∃ ws, wordsOfBytes image = some ws ∧ ws.length ≤ 32768 ∧ t = s.setMem (Memory.ofWords 0 ws) := by
  unfold serveLoad at h
  cases hw : wordsOfBytes image with
  | none => rw [hw] at h; cases h
  | some ws =>
    rw [hw] at h
    by_cases hl : ws.length ≤ memCells
    · simp only [hl, if_true] at h; cases h; exact ⟨ws, rfl, hl, rfl⟩
    · simp only [hl, if_false] at h; cases h

/-- What a start can answer. -/
theorem serveStart_next {s t : State} (h : serveStart s = .next t) : s.status = .idle ∧ t = s.setStatus .running := by
  unfold serveStart at h
  cases hs : s.status <;> rw [hs] at h <;> first | (cases h; exact ⟨rfl, rfl⟩) | cases h

end Sys2Proof.Machine
end

