-- ==== Sys2Proof/Laws/Exec.lean ====
section
/-! SUPPORT. What each meaning can answer: one inversion lemma per meaning, to cite instead of unfolding it. Beside the
case of an invalid operand, each says every effect the instruction has. -/

namespace Sys2Proof.Machine

variable {s t : State} {a b c : Operand}

/-- The state after the InvalidOperand fault. -/
def AfterInvalidOperand (s t : State) : Prop := ∃ w, t = s.recordFault .invalidOperand w

/-- A destination and a value. -/
theorem withDst_withValue_next {k : Reg → Cell → Result}
    (h : (withDst a s fun d => withValue b s fun v => k d v) = .next t) :
    AfterInvalidOperand s t ∨ ∃ d v, a = .register d ∧ resolve s b = .ok v ∧ k d v = .next t := by
  rcases withDst_next h with ⟨d, rfl, h⟩ | ⟨w, -, rfl⟩
  · rcases withValue_next h with ⟨v, hv, h⟩ | ⟨w, -, rfl⟩
    · exact .inr ⟨d, v, rfl, hv, h⟩
    · exact .inl ⟨w, rfl⟩
  · exact .inl ⟨w, rfl⟩

/-- Two values. -/
theorem withValue_withValue_next {k : Cell → Cell → Result}
    (h : (withValue a s fun x => withValue b s fun y => k x y) = .next t) :
    AfterInvalidOperand s t ∨ ∃ x y, resolve s a = .ok x ∧ resolve s b = .ok y ∧ k x y = .next t := by
  rcases withValue_next h with ⟨x, hx, h⟩ | ⟨w, -, rfl⟩
  · rcases withValue_next h with ⟨y, hy, h⟩ | ⟨w, -, rfl⟩
    · exact .inr ⟨x, y, hx, hy, h⟩
    · exact .inl ⟨w, rfl⟩
  · exact .inl ⟨w, rfl⟩

/-- One value. -/
theorem withValue_next' {k : Cell → Result} (h : withValue a s k = .next t) :
    AfterInvalidOperand s t ∨ ∃ x, resolve s a = .ok x ∧ k x = .next t := by
  rcases withValue_next h with ⟨x, hx, h⟩ | ⟨w, -, rfl⟩
  · exact .inr ⟨x, hx, h⟩
  · exact .inl ⟨w, rfl⟩

/-- One destination. -/
theorem withDst_next' {k : Reg → Result} (h : withDst a s k = .next t) :
    AfterInvalidOperand s t ∨ ∃ d, a = .register d ∧ k d = .next t := by
  rcases withDst_next h with ⟨d, hd, h⟩ | ⟨w, -, rfl⟩
  · exact .inr ⟨d, hd, h⟩
  · exact .inl ⟨w, rfl⟩

theorem writeAndAdvance_next {d : Reg} {v : Cell} {n : Nat} (h : writeAndAdvance d v n s = .next t) :
    t = (s.setReg d v).setPc (s.pc + BitVec.ofNat 16 n) := by
  cases h; rfl

/-- eq, gt, add, mult, and, or. -/
theorem binaryOp_next' {f : Cell → Cell → Cell} (h : binaryOp f a b c s = .next t) :
    AfterInvalidOperand s t ∨ ∃ d x y, a = .register d ∧ resolve s b = .ok x ∧ resolve s c = .ok y ∧
      t = (s.setReg d (f x y)).setPc (s.pc + BitVec.ofNat 16 4) :=
  (binaryOp_next h).symm

theorem execHalt_next (h : execHalt s = .next t) : t = s.setStatus .halted := halt_next h

theorem execNoop_next (h : execNoop s = .next t) : t = s.setPc (s.pc + 1) := by
  cases h; rfl

theorem execSet_next (h : execSet a b s = .next t) :
    AfterInvalidOperand s t ∨ ∃ d v, a = .register d ∧ resolve s b = .ok v ∧
      t = (s.setReg d v).setPc (s.pc + 3) := by
  refine (withDst_withValue_next h).imp_right ?_
  rintro ⟨d, v, hd, hv, h⟩
  exact ⟨d, v, hd, hv, writeAndAdvance_next h⟩

theorem execPush_next (h : execPush a s = .next t) :
    AfterInvalidOperand s t ∨ ∃ v, resolve s a = .ok v ∧ t = (s.setStack (v :: s.stack)).setPc (s.pc + 2) := by
  refine (withValue_next' h).imp_right ?_
  rintro ⟨v, hv, h⟩
  cases h
  exact ⟨v, hv, rfl⟩

theorem execPop_next (h : execPop a s = .next t) :
    AfterInvalidOperand s t ∨ ∃ d, a = .register d ∧
      ((s.stack = [] ∧ t = s.recordFault .stackUnderflow 0) ∨
        ∃ v st, s.stack = v :: st ∧ t = ((s.setStack st).setReg d v).setPc (s.pc + 2)) := by
  refine (withDst_next' h).imp_right ?_
  rintro ⟨d, hd, h⟩
  refine ⟨d, hd, ?_⟩
  cases hs : s.stack with
  | nil => rw [hs] at h; exact .inl ⟨rfl, raise_next h⟩
  | cons v st => rw [hs] at h; exact .inr ⟨v, st, rfl, writeAndAdvance_next h⟩

theorem execJmp_next (h : execJmp a s = .next t) :
    AfterInvalidOperand s t ∨ ∃ g, resolve s a = .ok g ∧ t = s.setPc g.toWord := by
  refine (withValue_next' h).imp_right ?_
  rintro ⟨g, hg, h⟩
  cases h
  exact ⟨g, hg, rfl⟩

theorem isNonzero_iff (x : Cell) : isNonzero x = true ↔ x ≠ 0 := by
  simp [isNonzero]

theorem execJt_next (h : execJt a b s = .next t) :
    AfterInvalidOperand s t ∨ ∃ x g, resolve s a = .ok x ∧ resolve s b = .ok g ∧
      t = s.setPc (if x = 0 then s.pc + 3 else g.toWord) := by
  refine (withValue_withValue_next h).imp_right ?_
  rintro ⟨x, g, hx, hg, h⟩
  refine ⟨x, g, hx, hg, ?_⟩
  cases h
  by_cases hx0 : x = 0
  · rw [if_neg fun hn => (isNonzero_iff x).1 hn hx0, if_pos hx0]; rfl
  · rw [if_pos ((isNonzero_iff x).2 hx0), if_neg hx0]; rfl

theorem execJf_next (h : execJf a b s = .next t) :
    AfterInvalidOperand s t ∨ ∃ x g, resolve s a = .ok x ∧ resolve s b = .ok g ∧
      t = s.setPc (if x = 0 then g.toWord else s.pc + 3) := by
  refine (withValue_withValue_next h).imp_right ?_
  rintro ⟨x, g, hx, hg, h⟩
  refine ⟨x, g, hx, hg, ?_⟩
  cases h
  by_cases hx0 : x = 0
  · rw [if_neg fun hn => (isNonzero_iff x).1 hn hx0, if_pos hx0]; rfl
  · rw [if_pos ((isNonzero_iff x).2 hx0), if_neg hx0]; rfl

theorem execMod_next (h : execMod a b c s = .next t) :
    AfterInvalidOperand s t ∨ ∃ d x y, a = .register d ∧ resolve s b = .ok x ∧ resolve s c = .ok y ∧
      ((y = 0 ∧ t = s.recordFault .modByZero 0) ∨
        (y ≠ 0 ∧ t = (s.setReg d (reduceToCell (x.toNat % y.toNat))).setPc (s.pc + 4))) := by
  rcases withDst_withValue_next h with h | ⟨d, x, hd, hx, h⟩
  · exact .inl h
  · refine (withValue_next' h).imp_right ?_
    rintro ⟨y, hy, h⟩
    refine ⟨d, x, y, hd, hx, hy, ?_⟩
    have hy0 : y.toNat = 0 ↔ y = 0 := ⟨fun h => BitVec.eq_of_toNat_eq h, fun h => by rw [h]; rfl⟩
    by_cases hz : y = 0
    · rw [if_pos (hy0.2 hz)] at h; exact .inl ⟨hz, raise_next h⟩
    · rw [if_neg fun h0 => hz (hy0.1 h0)] at h; exact .inr ⟨hz, writeAndAdvance_next h⟩

theorem execNot_next (h : execNot a b s = .next t) :
    AfterInvalidOperand s t ∨ ∃ d x, a = .register d ∧ resolve s b = .ok x ∧
      t = (s.setReg d (BitVec.ofNat 15 (32767 - x.toNat))).setPc (s.pc + 3) := by
  refine (withDst_withValue_next h).imp_right ?_
  rintro ⟨d, v, hd, hv, h⟩
  exact ⟨d, v, hd, hv, writeAndAdvance_next h⟩

theorem execRmem_next (h : execRmem a b s = .next t) :
    AfterInvalidOperand s t ∨ ∃ d ea, a = .register d ∧ resolve s b = .ok ea ∧
      ((32768 ≤ (Memory.read s.mem ea.toNat).toNat ∧ s.config.rmemWide = .fault ∧
          t = s.recordFault .valueOutOfRange (Memory.read s.mem ea.toNat)) ∨
        ∃ v, t = (s.setReg d v).setPc (s.pc + 3)) := by
  refine (withDst_withValue_next h).imp_right ?_
  rintro ⟨d, ea, hd, hea, h⟩
  refine ⟨d, ea, hd, hea, ?_⟩
  rw [withMemRead_inside s _ (effectiveAddress_inside ea)] at h
  by_cases hw : (Memory.read s.mem ea.toNat).toNat < 32768
  · rw [if_pos hw] at h; exact .inr ⟨_, writeAndAdvance_next h⟩
  · rw [if_neg hw] at h
    cases hp : s.config.rmemWide with
    | fault => rw [hp] at h; exact .inl ⟨by omega, rfl, raise_next h⟩
    | reduce => rw [hp] at h; exact .inr ⟨_, writeAndAdvance_next h⟩

theorem execWmem_next (h : execWmem a b s = .next t) :
    AfterInvalidOperand s t ∨ ∃ ea v, resolve s a = .ok ea ∧ resolve s b = .ok v ∧
      t = (s.setMem (Memory.write s.mem (effectiveAddress ea) v.toWord)).setPc (s.pc + 3) := by
  refine (withValue_withValue_next h).imp_right ?_
  rintro ⟨ea, v, hea, hv, h⟩
  rw [withMemWrite_inside v s _ (effectiveAddress_inside ea)] at h
  cases h
  exact ⟨ea, v, hea, hv, rfl⟩

theorem execCall_next (h : execCall a s = .next t) :
    AfterInvalidOperand s t ∨ ∃ g, resolve s a = .ok g ∧
      ((s.pc.toNat + 2 < 32768 ∧
          t = (s.setStack (BitVec.ofNat 15 (s.pc.toNat + 2) :: s.stack)).setPc g.toWord) ∨
        (32768 ≤ s.pc.toNat + 2 ∧ t = s.recordFault .addressOutOfRange 0)) := by
  refine (withValue_next' h).imp_right ?_
  rintro ⟨g, hg, h⟩
  refine ⟨g, hg, ?_⟩
  by_cases hp : s.pc.toNat + 2 < 32768
  · rw [if_pos hp] at h; cases h; exact .inl ⟨hp, rfl⟩
  · rw [if_neg hp] at h; exact .inr ⟨by omega, raise_next h⟩

theorem execRet_next (h : execRet s = .next t) :
    (s.stack = [] ∧ t = s.setStatus .halted) ∨
      ∃ g st, s.stack = g :: st ∧ t = (s.setStack st).setPc g.toWord := by
  unfold execRet at h
  cases hs : s.stack with
  | nil => rw [hs] at h; exact .inl ⟨rfl, halt_next h⟩
  | cons g st => rw [hs] at h; cases h; exact .inr ⟨g, st, rfl, rfl⟩

theorem execOut_next (h : execOut a s = .next t) :
    AfterInvalidOperand s t ∨ ∃ v, resolve s a = .ok v ∧
      t = (s.writeChar (BitVec.ofNat 8 (v.toNat % 256))).setPc (s.pc + 2) := by
  refine (withValue_next' h).imp_right ?_
  rintro ⟨v, hv, h⟩
  cases h
  exact ⟨v, hv, rfl⟩

theorem execInp_next (h : execInp a s = .next t) :
    AfterInvalidOperand s t ∨ ∃ d, a = .register d ∧
      ((s.input = [] ∧ t = s) ∨
        (∃ later, s.input = .blocked :: later ∧ t = s.setInput later) ∨
        (∃ x later, s.input = .byte x :: later ∧
          t = ((s.setInput later).setReg d (x.setWidth 15)).setPc (s.pc + 2)) ∨
        ∃ later, s.input = .eof :: later ∧
          ((s.config.eofPolicy = .fault ∧ t = s.recordFault .inputExhausted 0) ∨
            (s.config.eofPolicy = .halt ∧ t = s.setStatus .halted))) := by
  refine (withDst_next' h).imp_right ?_
  rintro ⟨d, hd, h⟩
  refine ⟨d, hd, ?_⟩
  rcases readChar_cases s with ⟨hi, hr⟩ | ⟨x, later, hi, hr⟩ | ⟨later, hi, hr⟩ | ⟨later, hi, hr⟩ <;> rw [hr] at h
  · cases h; exact .inl ⟨hi, rfl⟩
  · exact .inr (.inr (.inl ⟨x, later, hi, writeAndAdvance_next h⟩))
  · cases h; exact .inr (.inl ⟨later, hi, rfl⟩)
  · refine .inr (.inr (.inr ⟨later, hi, ?_⟩))
    cases hp : s.config.eofPolicy with
    | fault => simp only [hp] at h; exact .inl ⟨rfl, raise_next h⟩
    | halt => simp only [hp] at h; exact .inr ⟨rfl, halt_next h⟩

end Sys2Proof.Machine
end

