-- ==== Sys2Proof/Laws/Step.lean ====
section
/-! SUPPORT. What a step can do, said once: the core's turn, the host's transactions, and where the operands of the
fetched instruction come from (spec 30_encoding.md R71, 10_state.md R21, R27, R28). -/

namespace Sys2Proof.Machine

/-! ### The operands of the fetched instruction -/

/-- The decoder's check of an operand is the check on its raw word (R132). -/
theorem role_accepts_ofWord (role : Role) (w : Word) : role.accepts (.ofWord w) = true ↔ AcceptsWord role w := by
  rcases Nat.lt_or_ge w.toNat 32768 with h | h
  · rw [Operand.ofWord_literal h]
    cases role <;> simp [Role.accepts, AcceptsWord, IsDstWord, IsValueWord] <;> omega
  · rcases Nat.lt_or_ge w.toNat 32776 with h' | h'
    · rw [Operand.ofWord_register (d := ⟨w.toNat - 32768, by omega⟩) (by simp only; omega)]
      cases role <;> simp [Role.accepts, AcceptsWord, IsDstWord, IsValueWord] <;> omega
    · rw [Operand.ofWord_invalid h']
      cases role <;> simp [Role.accepts, AcceptsWord, IsDstWord, IsValueWord] <;> omega

/-- An instruction takes as many operands as its format has, each the class of its word, in order. -/
theorem Format.take_operands {f : Format} {ws rest : List Word} {i : Instr} (hf : f ∈ opcodeTable)
    (h : f.take ws = .ok (i, rest)) :
    i.operands.map Prod.snd = (ws.take i.operands.length).map Operand.ofWord ∧ i.operands.length ≤ ws.length := by
  simp only [opcodeTable, List.cons_append, List.nil_append, List.mem_cons, List.not_mem_nil, or_false] at hf
  rcases hf with rfl | rfl | rfl | rfl | rfl | rfl | rfl | rfl | rfl | rfl | rfl | rfl | rfl | rfl | rfl | rfl | rfl |
    rfl | rfl | rfl | rfl | rfl <;> rcases ws with _ | ⟨_, _ | ⟨_, _ | ⟨_, _⟩⟩⟩ <;>
    simp [Format.take] at h <;> obtain ⟨rfl, -⟩ := h <;> simp [Instr.operands]

/-- Operand k of the instruction at the pc is the class of the word at pc + k + 1, which memory has. -/
theorem fetched_operand {s : State} {i : Instr} {rest : List Word} (h : decode (fetchWords s) = .ok (i, rest))
    {k : Nat} (hk : k < i.operands.length) :
    s.pc.toNat + (k + 1) < 32768 ∧
      ∃ role, i.operands[k]? = some (role, .ofWord (Memory.read s.mem (s.pc.toNat + (k + 1)))) := by
  have hlen := fetchWords_length s
  cases hw : fetchWords s with
  | nil => rw [hw] at h; cases h
  | cons op ws =>
    rw [hw] at h hlen
    rcases ho : opcodeTable[op.toNat]? with _ | f
    · simp [decode, ho] at h
    · rw [decode_cons op ws ho] at h
      obtain ⟨hm, hl⟩ := Format.take_operands (List.mem_of_getElem? ho) h
      rw [List.length_cons] at hlen
      have hin : s.pc.toNat + (k + 1) < 32768 := by omega
      refine ⟨hin, ?_⟩
      have hget := Memory.window_get s.mem s.pc.toNat 4 (k + 1) (by omega) hin
      rw [show Memory.window s.mem s.pc.toNat 4 = op :: ws from hw, List.getElem?_cons_succ] at hget
      have hsnd := congrArg (·[k]?) hm
      simp only [List.getElem?_map, List.getElem?_take, hk, if_true, hget, Option.map_some] at hsnd
      obtain ⟨p, hp, he⟩ := Option.map_eq_some_iff.1 hsnd
      exact ⟨p.1, by rw [hp, ← he]⟩

/-! ### The core's turn -/

/-- What the core's turn is when it runs an instruction. -/
theorem coreTurn_run {s u : State} {i : Instr} (h : coreTurn s = .run i u) :
    u = s ∧ s.status = .running ∧ s.cancelRequested = false ∧ ∃ rest, decode (fetchWords s) = .ok (i, rest) := by
  unfold coreTurn at h
  split at h <;> try cases h
  next hs =>
    split at h
    · cases h
    · next hc =>
      split at h
      · next rest hd => cases h; exact ⟨rfl, hs, by simpa using hc, rest, hd⟩
      · cases h

/-- What the core's turn comes to when it runs none. -/
theorem coreTurn_done {s : State} {o : Result} (h : coreTurn s = .done o) :
    (s.status ≠ .running ∧ o = .next s) ∨
      (s.status = .running ∧ s.cancelRequested = true ∧ o = .next (s.setStatus .cancelled)) ∨
      (s.status = .running ∧ s.cancelRequested = false ∧
        ∃ e, decode (fetchWords s) = .error e ∧ o = onDecodeError e s) := by
  unfold coreTurn at h
  split at h
  case h_5 hs =>
    split at h
    · next hc => cases h; exact .inr (.inl ⟨hs, hc, rfl⟩)
    · next hc =>
      split at h
      · cases h
      · next e hd => cases h; exact .inr (.inr ⟨hs, by simpa using hc, e, hd, rfl⟩)
  all_goals
    next hs => cases h; exact .inl ⟨by rw [hs]; decide, rfl⟩

/-- A word that is no instruction faults, or is skipped under `lenient` (R68, R73, R135). -/
theorem onDecodeError_next {e : DecodeError} {s t : State} (h : onDecodeError e s = .next t) :
    ((e = .noOpcodeWord ∨ e = .noOperandWord) ∧ t = s.recordFault .addressOutOfRange 0) ∨
      ∃ op, e = .unknownOpcode op ∧ ((s.config.lenient = false ∧ t = s.recordFault .unknownOpcode op) ∨
        (s.config.lenient = true ∧ t = s.setPc (s.pc + 1))) := by
  cases e with
  | noOpcodeWord => exact .inl ⟨.inl rfl, raise_next h⟩
  | noOperandWord => exact .inl ⟨.inr rfl, raise_next h⟩
  | unknownOpcode op =>
    refine .inr ⟨op, rfl, ?_⟩
    cases hl : s.config.lenient <;> simp [onDecodeError, unknownOpcode, hl] at h
    · exact .inl ⟨rfl, raise_next h⟩
    · exact .inr ⟨rfl, h.symm⟩

/-- `t` is what the core's turn makes of `s`: nothing outside Running, Cancelled on a request, an instruction's own
step, or the step of a word that is none. -/
def CoreTurnGives (s t : State) : Prop :=
  (s.status ≠ .running ∧ t = s) ∨
  (s.status = .running ∧ s.cancelRequested = true ∧ t = s.setStatus .cancelled) ∨
  (s.status = .running ∧ s.cancelRequested = false ∧
    ((∃ i rest, decode (fetchWords s) = .ok (i, rest) ∧ exec i s = .next t) ∨
      ∃ e, decode (fetchWords s) = .error e ∧ onDecodeError e s = .next t))

theorem coreTurnGives_of_done {s t : State} (h : coreTurn s = .done (.next t)) : CoreTurnGives s t := by
  rcases coreTurn_done h with ⟨h1, h2⟩ | ⟨h1, h2, h3⟩ | ⟨h1, h2, e, hd, h3⟩
  · cases h2; exact .inl ⟨h1, rfl⟩
  · cases h3; exact .inr (.inl ⟨h1, h2, rfl⟩)
  · exact .inr (.inr ⟨h1, h2, .inr ⟨e, hd, h3.symm⟩⟩)

theorem coreTurnGives_of_run {s t u : State} {i : Instr} (h : coreTurn s = .run i u) (hx : exec i u = .next t) :
    CoreTurnGives s t := by
  obtain ⟨rfl, h1, h2, rest, hd⟩ := coreTurn_run h
  exact .inr (.inr ⟨h1, h2, .inl ⟨i, rest, hd, hx⟩⟩)

/-! ### The step -/

/-- What a step served by the host's transaction gives. -/
def HostGives (s t : State) (rs : List HostRequest) : Prop :=
  (s.requests = .reset :: rs ∧ t = serveReset (s.setRequests rs)) ∨
  (∃ image ws, s.requests = .load image :: rs ∧ s.status = .idle ∧ wordsOfBytes image = some ws ∧
    ws.length ≤ 32768 ∧ t = (s.setRequests rs).setMem (Memory.ofWords 0 ws)) ∨
  (∃ regs, s.requests = .preload regs :: rs ∧ s.status = .idle ∧ t = { s.setRequests rs with regs := regs }) ∨
  (∃ config, s.requests = .configure config :: rs ∧ s.status = .idle ∧
    t = { s.setRequests rs with config := config }) ∨
  (∃ input, s.requests = .attach input :: rs ∧ s.status = .idle ∧
    t = { s.setRequests rs with input := input, output := [] }) ∨
  (s.requests = .start :: rs ∧ s.status = .idle ∧ t = (s.setRequests rs).setStatus .running) ∨
  (s.requests = .cancel :: rs ∧ t = { s.setRequests rs with cancelRequested := true })

/-- Everything a step that goes on can do: the core's turn with nothing pending, the core's turn on a yield, or one of
the host's transactions. -/
theorem step_next {s t : State} (h : step s = .next t) :
    (s.requests = [] ∧ CoreTurnGives s t) ∨
      ∃ rs, (s.requests = .yield :: rs ∧ CoreTurnGives (s.setRequests rs) t) ∨ HostGives s t rs := by
  unfold step at h
  split at h
  · next o ho =>
    subst h
    unfold nextTurn at ho
    split at ho
    case h_1 hr => exact .inl ⟨hr, coreTurnGives_of_done ho⟩
    case h_2 rs hr => exact .inr ⟨rs, .inl ⟨hr, coreTurnGives_of_done ho⟩⟩
    case h_3 rs hr => cases ho; exact .inr ⟨rs, .inr (.inl ⟨hr, rfl⟩)⟩
    case h_4 image rs hr =>
      obtain ⟨hi, h⟩ := whileIdle_next (Turn.done.inj ho)
      obtain ⟨ws, hw, hl, rfl⟩ := serveLoad_next h
      exact .inr ⟨rs, .inr (.inr (.inl ⟨image, ws, hr, hi, hw, hl, rfl⟩))⟩
    case h_5 regs rs hr =>
      obtain ⟨hi, h⟩ := whileIdle_next (Turn.done.inj ho)
      cases h; exact .inr ⟨rs, .inr (.inr (.inr (.inl ⟨regs, hr, hi, rfl⟩)))⟩
    case h_6 config rs hr =>
      obtain ⟨hi, h⟩ := whileIdle_next (Turn.done.inj ho)
      cases h; exact .inr ⟨rs, .inr (.inr (.inr (.inr (.inl ⟨config, hr, hi, rfl⟩))))⟩
    case h_7 input rs hr =>
      obtain ⟨hi, h⟩ := whileIdle_next (Turn.done.inj ho)
      cases h; exact .inr ⟨rs, .inr (.inr (.inr (.inr (.inr (.inl ⟨input, hr, hi, rfl⟩)))))⟩
    case h_8 rs hr =>
      obtain ⟨hi, rfl⟩ := serveStart_next (Turn.done.inj ho)
      exact .inr ⟨rs, .inr (.inr (.inr (.inr (.inr (.inr (.inl ⟨hr, hi, rfl⟩))))))⟩
    case h_9 rs hr =>
      cases ho; exact .inr ⟨rs, .inr (.inr (.inr (.inr (.inr (.inr (.inr ⟨hr, rfl⟩))))))⟩
  · next i u hi =>
    unfold nextTurn at hi
    split at hi
    case h_1 hr => exact .inl ⟨hr, coreTurnGives_of_run hi h⟩
    case h_2 rs hr => exact .inr ⟨rs, .inl ⟨hr, coreTurnGives_of_run hi h⟩⟩
    all_goals cases hi

end Sys2Proof.Machine
end

