-- ==== Sys2Proof/Tests/Slice0.lean ====
section
/-! SUPPORT. Tests. Words are written out from 30_encoding.md R62, R67; expected results are those of
95_test_vectors.md (the section is named) or the rule named. The witnesses show that the hypotheses of the statements can be met. -/

namespace Sys2Proof.Tests

open Sys2Proof Sys2Proof.Machine

/-! ### Helpers -/

/-- A running core with an image loaded (R162). -/
def launched (ws : List Word) : State :=
  { State.reset with mem := Memory.ofWords 0 ws, status := .running }

/-- The same with the eight registers preloaded. -/
def launchedWith (regs : Vector Cell 8) (ws : List Word) : State := { launched ws with regs := regs }

/-- One step goes on, and the next state passes. -/
def after (s : State) (p : State → Bool) : Bool :=
  match step s with
  | .next t => p t
  | .fault _ => false
  | .refused _ => false

/-- The next state is Faulted with this kind, info and pc. -/
def faultIs (k : FaultKind) (info : Word) (pc : BitVec 16) (t : State) : Bool :=
  decide (t.status = .faulted ∧ t.faultKind = k ∧ t.faultInfo = info ∧ t.faultPc = pc ∧ t.pc = pc)

/-- The next state is still Running at this pc, with this value in this register. -/
def regIs (r : Reg) (v : Cell) (pc : BitVec 16) (t : State) : Bool :=
  decide (t.status = .running ∧ t.reg r = v ∧ t.pc = pc)

/-- R0 = 1, R1 = 65, R7 = 99. -/
def someRegs : Vector Cell 8 := #v[1, 65, 0, 0, 0, 0, 0, 99]

/-! ### Well-formedness: an ill-formed term for each check -/

theorem test_wellFormed_refuses_literal_destination :
    (Instr.set (.literal 5) (.literal 7)).wellFormed = false := by decide
theorem test_wellFormed_refuses_invalid_destination :
    (Instr.pop (.invalid 0x8008)).wellFormed = false := by decide
theorem test_wellFormed_refuses_invalid_value :
    (Instr.jt (.literal 0) (.invalid 0x9C40)).wellFormed = false := by decide
theorem test_classified_refuses_misplaced_word :
    (Instr.push (.invalid 0x0007)).classified = false := by decide
theorem test_wellFormed_accepts : (Instr.wmem (.literal 5) (.register 7)).wellFormed = true := by decide
theorem test_firstInvalid_in_operand_order :
    (Instr.mod (.literal 5) (.invalid 0x8008) (.literal 0)).firstInvalid = some (.literal 5) := by decide

/-! ### Decoding: one word sequence for every constructor (R67) -/

theorem test_decode_halt : decode [0b0000000000000000] = .ok (.halt, []) := by decide
theorem test_decode_set : decode [0b0000000000000001, 0b1000000000000010, 0b0000010011010010]
    = .ok (.set (.register 2) (.literal 1234), []) := by decide
theorem test_decode_push : decode [0b0000000000000010, 0b1000000000000000] = .ok (.push (.register 0), []) := by decide
theorem test_decode_pop : decode [0b0000000000000011, 0b1000000000000111] = .ok (.pop (.register 7), []) := by decide
theorem test_decode_eq : decode [0x0004, 0x8000, 0x8001, 0x000A]
    = .ok (.eq (.register 0) (.register 1) (.literal 10), []) := by decide
theorem test_decode_gt : decode [0x0005, 0x8000, 0x7FFF, 0x0000]
    = .ok (.gt (.register 0) (.literal 32767) (.literal 0), []) := by decide
theorem test_decode_jmp : decode [0x0006, 0x0064] = .ok (.jmp (.literal 100), []) := by decide
theorem test_decode_jt : decode [0x0007, 0x8000, 0x0006] = .ok (.jt (.register 0) (.literal 6), []) := by decide
theorem test_decode_jf : decode [0x0008, 0x8000, 0x0006] = .ok (.jf (.register 0) (.literal 6), []) := by decide
theorem test_decode_add : decode [0x0009, 0x8000, 0x0004, 0x0006]
    = .ok (.add (.register 0) (.literal 4) (.literal 6), []) := by decide
theorem test_decode_mult : decode [0x000A, 0x8000, 0x00B5, 0x00B6]
    = .ok (.mult (.register 0) (.literal 181) (.literal 182), []) := by decide
theorem test_decode_mod : decode [0x000B, 0x8001, 0x0007, 0x8000]
    = .ok (.mod (.register 1) (.literal 7) (.register 0), []) := by decide
theorem test_decode_and : decode [0x000C, 0x8000, 0x000C, 0x000A]
    = .ok (.and (.register 0) (.literal 12) (.literal 10), []) := by decide
theorem test_decode_or : decode [0x000D, 0x8000, 0x000C, 0x000A]
    = .ok (.or (.register 0) (.literal 12) (.literal 10), []) := by decide
theorem test_decode_not : decode [0x000E, 0x8000, 0x0000] = .ok (.not (.register 0) (.literal 0), []) := by decide
theorem test_decode_rmem : decode [0x000F, 0x8000, 0x0009] = .ok (.rmem (.register 0) (.literal 9), []) := by decide
theorem test_decode_wmem : decode [0x0010, 0x0003, 0x0015] = .ok (.wmem (.literal 3) (.literal 21), []) := by decide
theorem test_decode_call : decode [0x0011, 0x0005] = .ok (.call (.literal 5), []) := by decide
theorem test_decode_ret : decode [0x0012, 0x0048] = .ok (.ret, [0x0048]) := by decide
theorem test_decode_out : decode [0x0013, 0x0041] = .ok (.out (.literal 65), []) := by decide
theorem test_decode_in : decode [0x0014, 0x8000] = .ok (.inp (.register 0), []) := by decide
theorem test_decode_noop : decode [0x0015] = .ok (.noop, []) := by decide
/-- R63, the boundaries of the classes. -/
theorem test_decode_classes : [0x7FFF, 0x8000, 0x8007, 0x8008, 0xFFFF].map Operand.ofWord
    = [.literal 32767, .register 0, .register 7, .invalid 0x8008, .invalid 0xFFFF] := by decide
/-- R68, R61 and R73. -/
theorem test_decode_rejects : decode [0x0016, 0x0001] = .error (.unknownOpcode 22) ∧
    decode [0x8000] = .error (.unknownOpcode 0x8000) ∧ decode [] = .error .noOpcodeWord ∧
    decode [0x0009, 0x8000, 0x0001] = .error .noOperandWord := by decide
theorem test_encode_add : encode (.add (.register 0) (.literal 4) (.literal 6)) = [0x0009, 0x8000, 0x0004, 0x0006] := by
  decide
/-- The bytes of scenario S2, 95_test_vectors.md 1.1. -/
theorem test_words_of_bytes : wordsOfBytes [0x09, 0x00, 0x00, 0x80, 0x04, 0x00] = some [9, 32768, 4] ∧
    wordsOfBytes [0x13] = none := by decide
theorem test_decodeTableWord : decodeTableWord 48 0x000680000007 = some (.jt (.register 0) (.literal 6)) ∧
    decodeTableWord 16 0x0009 = some (.add (.literal 0) (.literal 0) (.literal 0)) ∧
    decodeTableWord 16 0x0016 = none := by decide

/-! ### Instructions, one step each (95_test_vectors.md section 2) -/

theorem test_halt : after (launched []) (fun t => decide (t = { launched [] with status := .halted })) = true := by
  decide
theorem test_noop : after (launched [21, 0]) (regIs 0 0 1) = true := by decide
theorem test_set : after (launchedWith someRegs [1, 32768, 32769]) (regIs 0 65 3) = true := by decide
theorem test_set_literal_destination : after (launched [1, 5, 7]) (faultIs .invalidOperand 5 0) = true := by decide
theorem test_push : after (launched [2, 7]) (fun t => decide (t.stack = [7] ∧ t.pc = 2)) = true := by decide
theorem test_pop : after { launched [3, 32770] with stack := [9, 7] }
    (fun t => regIs 2 9 2 t && decide (t.stack = [7])) = true := by decide
theorem test_pop_underflow : after (launched [3, 32768]) (faultIs .stackUnderflow 0 0) = true := by decide
theorem test_eq : after (launchedWith someRegs [4, 32768, 32769, 65]) (regIs 0 1 4) = true := by decide
theorem test_gt_unsigned : after (launched [5, 32768, 16384, 16383]) (regIs 0 1 4) = true := by decide
theorem test_gt_strict : after (launchedWith someRegs [5, 32768, 5, 5]) (regIs 0 0 4) = true := by decide
theorem test_jmp_register : after (launchedWith someRegs [6, 32769]) (fun t => decide (t.pc = 65)) = true := by decide
theorem test_jt_taken : after (launchedWith someRegs [7, 32768, 6]) (fun t => decide (t.pc = 6)) = true := by decide
theorem test_jt_validates_untaken : after (launched [7, 0, 40000]) (faultIs .invalidOperand 40000 0) = true := by decide
theorem test_jf_untaken : after (launched [8, 1, 9]) (fun t => decide (t.pc = 3)) = true := by decide
theorem test_jf_taken : after (launched [8, 0, 9]) (fun t => decide (t.pc = 9)) = true := by decide
theorem test_add_wraps : after (launched [9, 32768, 32767, 32767]) (regIs 0 32766 4) = true := by decide
theorem test_add_source_is_destination :
    after (launchedWith someRegs [9, 32769, 32769, 32769]) (regIs 1 130 4) = true := by decide
theorem test_mult_wraps : after (launched [10, 32768, 12345, 6789]) (regIs 0 22429 4) = true := by decide
theorem test_mult_minus_one : after (launched [10, 32768, 32767, 32767]) (regIs 0 1 4) = true := by decide
theorem test_mod : after (launched [11, 32768, 32767, 1000]) (regIs 0 767 4) = true := by decide
theorem test_mod_by_zero : after (launched [11, 32769, 7, 32768]) (faultIs .modByZero 0 0) = true := by decide
theorem test_and : after (launched [12, 32768, 12, 10]) (regIs 0 8 4) = true := by decide
theorem test_or : after (launched [13, 32768, 21845, 10922]) (regIs 0 32767 4) = true := by decide
theorem test_not : after (launched [14, 32768, 12345]) (regIs 0 20422 3) = true := by decide
theorem test_rmem : after (launchedWith #v[4, 0, 0, 0, 0, 0, 0, 0] [15, 32768, 32768, 0, 72]) (regIs 0 72 3) = true := by
  decide
theorem test_rmem_wide : after (launched [15, 32768, 3, 40000]) (faultIs .valueOutOfRange 40000 0) = true := by decide
theorem test_wmem_own_opcode : after (launched [16, 0, 21, 0])
    (fun t => decide (Memory.read t.mem 0 = 21 ∧ Memory.read t.mem 2 = 21 ∧ t.pc = 3)) = true := by decide
theorem test_wmem_literal_is_address : after (launchedWith someRegs [16, 5, 32769])
    (fun t => decide (Memory.read t.mem 5 = 65 ∧ t.regs = someRegs)) = true := by decide
theorem test_call : after (launched [17, 5]) (fun t => decide (t.stack = [2] ∧ t.pc = 5)) = true := by decide
/-- 2.9: the return address 32768 is no Cell. -/
theorem test_call_at_32766 :
    after { State.reset with status := .running, pc := 32766, mem := [(32766, 17)] }
      (fun t => faultIs .addressOutOfRange 0 32766 t && decide (t.stack = [])) = true := by decide
theorem test_ret : after { launched [18] with stack := [40, 7] }
    (fun t => decide (t.pc = 40 ∧ t.stack = [7])) = true := by decide
theorem test_ret_empty : after (launched [18]) (fun t => decide (t.status = .halted ∧ t.pc = 0)) = true := by decide
theorem test_out : after (launched [19, 321]) (fun t => decide (t.output = [65] ∧ t.pc = 2)) = true := by decide
theorem test_in : after { launched [20, 32768] with input := [.byte 200, .byte 10] }
    (fun t => regIs 0 200 2 t && decide (t.input = [.byte 10])) = true := by decide
theorem test_in_invalid_keeps_the_character : after { launched [20, 7] with input := [.byte 65] }
    (fun t => faultIs .invalidOperand 7 0 t && decide (t.input = [.byte 65])) = true := by decide

/-! ### The step around the instruction -/

/-- 2.11, both modes. -/
theorem test_unknown_opcode : after (launched [22, 19, 65, 0]) (faultIs .unknownOpcode 22 0) = true ∧
    after { launched [22, 19] with config := { Config.default with lenient := true } }
      (fun t => decide (t.status = .running ∧ t.pc = 1)) = true := by decide
/-- 2.11, the last address. -/
theorem test_end_of_memory :
    after { State.reset with status := .running, pc := 32767, mem := [(32767, 21)] }
      (fun t => decide (t.status = .running ∧ t.pc = 32768)) = true ∧
    after { State.reset with status := .running, pc := 32768 } (faultIs .addressOutOfRange 0 32768) = true ∧
    after { State.reset with status := .running, pc := 32765, mem := [(32765, 9)] }
      (faultIs .addressOutOfRange 0 32765) = true := by decide
/-- P1: the word stored is what the next step fetches. -/
theorem test_self_modifying : after (launched [16, 3, 21, 0, 19, 66, 0]) (fun t => after t (fun u =>
    decide (u.status = .running ∧ u.pc = 4))) = true := by decide
theorem test_withFetchWord : after (State.reset.withFetchWord 64 0x0006000480000009) (regIs 0 10 4) = true := by decide
/-- R21, R131. -/
theorem test_codes : [RunStatus.idle, .running, .halted, .faulted, .cancelled].map RunStatus.code = [0, 1, 2, 3, 4] ∧
    [FaultKind.none, .invalidOperand, .unknownOpcode, .stackUnderflow, .addressOutOfRange, .modByZero, .inputExhausted,
      .valueOutOfRange].map FaultKind.code = [0, 1, 2, 3, 4, 5, 6, 7] := by decide
/-- R29. -/
theorem test_termination_reason : after (launched [1, 5, 7]) (fun t =>
    decide (t.terminationReason = some (.faulted .invalidOperand 0))) = true ∧
    (launched []).terminationReason = none := by decide

/-! ### Witnesses: the hypotheses of every statement that has some can be met -/

theorem witness_OperandWordClasses : (0x7FFF : Word).toNat ≤ 32767 ∧
    (32768 ≤ (0x8000 : Word).toNat ∧ (0x8000 : Word).toNat ≤ 32775) ∧
    (32768 ≤ (0x8007 : Word).toNat ∧ (0x8007 : Word).toNat ≤ 32775) ∧ 32776 ≤ (0x8008 : Word).toNat := by decide
theorem witness_LengthComesFromOpcodeAlone : decode (9 :: [32768, 4, 6, 19]) =
    .ok (.add (.register 0) (.literal 4) (.literal 6), [19]) := by decide
theorem witness_DecodeOfEncodeIsTheInstruction :
    (Instr.set (.invalid 0x8008) (.literal 32767)).classified = true := by decide
theorem witness_EncodeOfDecodeIsTheWords : decode [3, 40000, 7] = .ok (.pop (.invalid 40000), [7]) := by decide
theorem witness_ResolveGivesLiteralOrRegisterValue : (0x7FFF : Word).toNat ≤ 32767 ∧
    (0x8007 : Word).toNat = 32768 + (7 : Reg).val ∧ 32776 ≤ (0x8008 : Word).toNat ∧
    resolve (launchedWith someRegs []) (.ofWord 0x8007) = .ok 99 := by decide
theorem witness_RegidxNamesTheDestination : (0x8007 : Word).toNat = 32768 + (7 : Reg).val ∧
    (0x7FFF : Word).toNat < 32768 ∧ 32775 < (0x8008 : Word).toNat := by decide
/-- SetWritesTheValue, NotIsFifteenBitComplement. -/
theorem witness_DstValueRule : ¬ IsDstWord 0x7FFF ∧ ¬ IsDstWord 0x8008 ∧ (IsDstWord 0x8000 ∧ ¬ IsValueWord 0x8008) ∧
    ((0x8000 : Word).toNat = 32768 + (0 : Reg).val ∧
      resolve (launchedWith someRegs []) (.ofWord 0x8001) = .ok 65) := by decide
/-- EqWritesOneOrZero, GtComparesUnsigned, AddWrapsModulo32768, MultWrapsModulo32768, AndIsBitwise, OrIsBitwise. -/
theorem witness_ThreeOperandRule : ¬ IsDstWord 0x7FFF ∧ (IsDstWord 0x8007 ∧ ¬ IsValueWord 0x8008) ∧
    (IsDstWord 0x8007 ∧ IsValueWord 0x8007 ∧ ¬ IsValueWord 0xFFFF) ∧
    ((0x8007 : Word).toNat = 32768 + (7 : Reg).val ∧ resolve (launchedWith someRegs []) (.ofWord 0x8007) = .ok 99 ∧
      resolve (launchedWith someRegs []) (.ofWord 0x7FFF) = .ok 32767) := by decide
theorem witness_PushAddsTheValueOnTop : ¬ IsValueWord 0x8008 ∧ resolve (launched []) (.ofWord 0x0007) = .ok 7 := by
  decide
theorem witness_PopMovesTheTopToTheRegister : ¬ IsDstWord 0x0005 ∧ (IsDstWord 0x8000 ∧ (launched []).stack = []) ∧
    ((0x8007 : Word).toNat = 32768 + (7 : Reg).val ∧ ({ launched [] with stack := [9, 7] } : State).stack = 9 :: [7]) := by
  decide
theorem witness_ModGivesTheRemainder : ¬ IsDstWord 0x0005 ∧ (IsDstWord 0x8000 ∧ ¬ IsValueWord 0x8008) ∧
    (IsDstWord 0x8000 ∧ IsValueWord 0x0007 ∧ ¬ IsValueWord 0x8008) ∧
    ((0x8001 : Word).toNat = 32768 + (1 : Reg).val ∧ resolve (launched []) (.ofWord 0x0007) = .ok 7 ∧
      resolve (launched []) (.ofWord 0x8000) = .ok 0 ∧ resolve (launched []) (.ofWord 0x0001) = .ok 1 ∧
      (0 : Cell).toNat = 0 ∧ (1 : Cell).toNat ≠ 0) := by decide
theorem witness_JmpTakesTheTarget : ¬ IsValueWord 0x8008 ∧
    resolve (launchedWith someRegs []) (.ofWord 0x8001) = .ok 65 := by decide
/-- JtJumpsOnNonzero, JfJumpsOnZero: the condition values 0 and 1. -/
theorem witness_ConditionalJumpRule : ¬ IsValueWord 0x8008 ∧ (IsValueWord 0x0000 ∧ ¬ IsValueWord 0x9C40) ∧
    resolve (launchedWith someRegs []) (.ofWord 0x8000) = .ok 1 ∧ resolve (launched []) (.ofWord 0x8000) = .ok 0 ∧
    resolve (launched []) (.ofWord 0x0006) = .ok 6 ∧ (1 : Cell).toNat ≠ 0 ∧ ¬ (0 : Cell).toNat ≠ 0 := by decide
theorem witness_MemoryPrimitivesReadAndWriteOneWord : Memory.wf (launched [16, 0, 21]).mem = true ∧
    32767 ≤ 32767 ∧ 32768 ≤ 32768 := by decide
/-- The three clauses: words 32767 and 32768 at address 3, both policies. -/
theorem witness_RmemLoadsTheWord : ¬ IsDstWord 0x0009 ∧ (IsDstWord 0x8000 ∧ ¬ IsValueWord 0x8008) ∧
    ((0x8000 : Word).toNat = 32768 + (0 : Reg).val ∧ resolve (launched []) (.ofWord 0x0003) = .ok 3) ∧
    (Memory.read (launched [15, 32768, 3, 32767]).mem (3 : Cell).toNat).toNat ≤ 32767 ∧
    (32768 ≤ (Memory.read (launched [15, 32768, 3, 32768]).mem (3 : Cell).toNat).toNat ∧
      (launched [15, 32768, 3, 32768]).config.rmemWide = .fault) ∧
    ({ launched [15, 32768, 3, 32768] with config := { Config.default with rmemWide := .reduce } } : State).config.rmemWide
      = .reduce := by decide
theorem witness_WmemStoresTheValue : Memory.wf (launched [16, 32768, 32769]).mem = true ∧ ¬ IsValueWord 0x8008 ∧
    (IsValueWord 0x7FFF ∧ ¬ IsValueWord 0x8008) ∧ resolve (launched []) (.ofWord 0x7FFF) = .ok 32767 ∧
    resolve (launchedWith someRegs []) (.ofWord 0x8001) = .ok 65 := by decide
theorem witness_StoreIsSeenByTheNextFetch : Memory.wf (launched [16, 3, 21]).mem = true ∧
    resolve (launched [16, 3, 21]) (.literal 3) = .ok 3 ∧ resolve (launched [16, 3, 21]) (.literal 21) = .ok 21 ∧
    after (launched [16, 3, 21]) (fun t => decide (t.pc.toNat + 0 = (3 : Cell).toNat)) = true := by decide
/-- The return addresses 32767 and 32768. -/
theorem witness_CallPushesTheReturnAddress : ¬ IsValueWord 0x8008 ∧ resolve (launched []) (.ofWord 0x0005) = .ok 5 ∧
    ({ launched [] with pc := 32765 } : State).pc.toNat + 2 ≤ 32767 ∧
    32768 ≤ ({ launched [] with pc := 32766 } : State).pc.toNat + 2 := by decide
theorem witness_RetPopsThePcOrHalts : (launched [18]).stack = [] ∧
    ({ launched [18] with stack := [40, 7] } : State).stack = 40 :: [7] := by decide
theorem witness_StackIsLastInFirstOut : 2 < [(1 : Cell), 2, 3].length := by decide
theorem witness_OutWritesOneByte : ¬ IsValueWord 0x8008 ∧ resolve (launched []) (.ofWord 0x0141) = .ok 321 := by decide
theorem witness_InReadsOneByte : ¬ IsDstWord 0x0007 ∧ (0x8007 : Word).toNat = 32768 + (7 : Reg).val ∧
    ({ launched [] with input := [.byte 255] } : State).input = .byte 255 :: [] := by decide
theorem witness_InBlockedChangesNothing : (launched []).input = [] ∧
    ({ launched [] with input := [.blocked, .byte 65] } : State).input = .blocked :: [.byte 65] := by decide
/-- Both policies. -/
theorem witness_InAtEndOfInputFaultsOrHalts : ({ launched [] with input := [.eof] } : State).input = .eof :: [] ∧
    (launched []).config.eofPolicy = .fault ∧
    ({ launched [] with config := { Config.default with eofPolicy := .halt } } : State).config.eofPolicy = .halt := by
  decide
theorem witness_OnlyOutWritesToTheSink : (∀ a, Instr.noop ≠ .out a) ∧ (∃ t, exec .noop (launched []) = .next t) ∧
    resolve (launched []) (.literal 65) = .ok 65 := ⟨(by intro a h; cases h), ⟨_, rfl⟩, by decide⟩
theorem witness_OnlyInAsksTheSource : (∃ t, exec .noop (launched []) = .next t) ∧ ∀ a, Instr.noop ≠ .inp a :=
  ⟨⟨_, rfl⟩, by intro a h; cases h⟩
theorem witness_RegistersChangeOnlyAsDestination :
    (∃ t, exec (.set (.register 0) (.literal 7)) (launched []) = .next t) ∧
    (Role.dst, Operand.register 1) ∉ (Instr.set (.register 0) (.literal 7)).operands := ⟨⟨_, rfl⟩, by decide⟩
theorem witness_MemoryChangesOnlyWhereWmemStores : Memory.wf (launched []).mem = true ∧
    (∃ t, exec (.wmem (.literal 3) (.literal 21)) (launched []) = .next t) ∧
    ∀ a b ea, Instr.wmem (.literal 3) (.literal 21) = .wmem a b → resolve (launched []) a = .ok ea →
      4 ≠ effectiveAddress ea :=
  ⟨by decide, ⟨_, rfl⟩, by intro a b ea h hr; cases h; cases hr; decide⟩
/-- StackChangesOnlyByItsInstructions, StatusIsWrittenOnlyAtTheEnd, PcAdvancesByTheTable (Running, and Halted). -/
theorem witness_exec_frames : (launched []).status = .running ∧
    (∃ t, exec (.push (.literal 7)) (launched []) = .next t ∧ t.status = .running) ∧
    (∃ t, exec .halt (launched []) = .next t ∧ t.status ≠ .running) := ⟨rfl, ⟨_, rfl, rfl⟩, _, rfl, by decide⟩
theorem witness_InvalidOperandReportsTheFirst : (launched []).status = .running ∧
    (Instr.add (.literal 1) (.invalid 0x8008) (.literal 0)).firstInvalid = some (.literal 1) ∧
    (Instr.pop (.register 0)).wellFormed = true ∧
    ∃ t, exec (.pop (.register 0)) (launched []) = .next t ∧ t.status = .faulted :=
  ⟨rfl, by decide, by decide, _, rfl, rfl⟩
/-- The opcode words 22 and 65535, both modes. -/
theorem witness_UnknownOpcodeFaultsOrIsSkipped :
    (CoreRuns (launched [22]) ∧ (launched [22]).pc.toNat ≤ 32767 ∧ 22 ≤ (Memory.read (launched [22]).mem 0).toNat ∧
      (launched [22]).config.lenient = false) ∧
    (CoreRuns { launched [65535] with config := { Config.default with lenient := true } } ∧
      22 ≤ (Memory.read (launched [65535]).mem 0).toNat) := by decide
theorem witness_StackUnderflowOnlyByPop : (launched []).status = .running ∧ (launched []).stack = [] ∧
    ∃ t, exec (.pop (.register 0)) (launched []) = .next t ∧ t.status = .faulted ∧ t.faultKind = .stackUnderflow :=
  ⟨rfl, rfl, _, rfl, rfl, rfl⟩
theorem witness_ModByZeroOnlyByMod : (launched []).status = .running ∧ resolve (launched []) (.literal 7) = .ok 7 ∧
    resolve (launched []) (.register 0) = .ok 0 ∧
    ∃ t, exec (.mod (.register 1) (.literal 7) (.register 0)) (launched []) = .next t ∧ t.status = .faulted ∧
      t.faultKind = .modByZero := ⟨rfl, rfl, rfl, _, rfl, rfl, rfl⟩
/-- One state for each of the three kinds; the call stands at the first pc of its clause, 32766. -/
theorem witness_DecidedFaultsHaveOneCause :
    (∃ t, exec (.call (.literal 0)) { launched [] with pc := 32766 } = .next t ∧ t.status = .faulted ∧
      t.faultKind = .addressOutOfRange) ∧
    (∃ t, exec (.rmem (.register 0) (.literal 1)) (launched [15, 32768, 1]) = .next t ∧ t.status = .faulted ∧
      t.faultKind = .valueOutOfRange) ∧
    (∃ t, exec (.inp (.register 0)) { launched [] with input := [.eof] } = .next t ∧ t.status = .faulted ∧
      t.faultKind = .inputExhausted) := ⟨⟨_, rfl, rfl, rfl⟩, ⟨_, rfl, rfl, rfl⟩, _, rfl, rfl, rfl⟩
/-- FaultInfoHoldsTheOffendingWord, each clause, and FaultsArePrecise: InvalidOperand for operand A (a literal as a
destination) and for operand C after two valid ones; `rmem` reading another word and its own operand word. -/
theorem witness_FaultInfoHoldsTheOffendingWord :
    (CoreRuns (launched [1, 5, 7]) ∧ after (launched [1, 5, 7]) (faultIs .invalidOperand 5 0) = true) ∧
    (CoreRuns (launched [9, 32768, 4, 32776]) ∧
      after (launched [9, 32768, 4, 32776]) (faultIs .invalidOperand 32776 0) = true ∧
      AcceptsWord .dst 32768 ∧ AcceptsWord .value 4 ∧ ¬ AcceptsWord .value 32776) ∧
    (CoreRuns (launched [22]) ∧ after (launched [22]) (faultIs .unknownOpcode 22 0) = true) ∧
    (CoreRuns (launched [15, 32768, 3, 40000]) ∧
      after (launched [15, 32768, 3, 40000]) (faultIs .valueOutOfRange 40000 0) = true) ∧
    (CoreRuns (launched [15, 32768, 1]) ∧
      after (launched [15, 32768, 1]) (faultIs .valueOutOfRange 32768 0) = true) ∧
    (CoreRuns (launched [3, 32768]) ∧ after (launched [3, 32768]) (faultIs .stackUnderflow 0 0) = true) := by decide
theorem witness_StepRunsTheDecodedInstruction : (launched [19, 65, 0]).status = .running ∧
    (launched [19, 65, 0]).cancelRequested = false ∧
    decode (fetchWords (launched [19, 65, 0])) = .ok (.out (.literal 65), [0, 0]) ∧
    (launched [19, 65, 0]).requests = [] ∧
    ({ launched [19, 65, 0] with requests := [.yield, .cancel] } : State).requests = .yield :: [.cancel] := by decide
/-- The pc 32768; a three-operand opcode at 32765, whose last operand lies at 32768, and at 32764, where it fits. -/
theorem witness_FetchFaultsInOrder :
    (CoreRuns { launched [] with pc := 32768 } ∧ 32768 ≤ (32768 : BitVec 16).toNat) ∧
    (CoreRuns { launched [] with pc := 32765, mem := [(32765, 9)] } ∧
      (Memory.read [(32765, 9)] 32765).toNat < 22 ∧
      32768 ≤ 32765 + operandCount (Memory.read [(32765, 9)] 32765).toNat) ∧
    (CoreRuns { launched [] with pc := 32764, mem := [(32764, 9)] } ∧
      32764 + operandCount (Memory.read [(32764, 9)] 32764).toNat ≤ 32767) := by decide
/-- Running and Idle, with nothing pending and with a yield. -/
theorem witness_EveryTurnOfTheCoreGoesOn : (launched []).requests = [] ∧
    (State.reset.requests = [] ∧ State.reset.status ≠ .running) ∧
    ({ launched [] with requests := [.yield, .cancel] } : State).requests = .yield :: [.cancel] ∧
    (({ State.reset with requests := [.yield] } : State).requests = .yield :: [] ∧
      ({ State.reset with requests := [.yield] } : State).status ≠ .running) := by decide
theorem witness_EndedRunsStayAsTheyAre :
    ({ launched [] with status := .cancelled } : State).ended ∧
    ({ launched [] with status := .cancelled } : State).requests = [] := by decide
theorem witness_CancelKeepsTheState :
    ({ launched [] with cancelRequested := true } : State).requests = [] ∧
    ({ launched [] with cancelRequested := true } : State).status = .running ∧
    ({ launched [] with cancelRequested := true } : State).cancelRequested = true ∧
    after { launched [] with cancelRequested := true } (fun t => decide (t.status = .cancelled)) = true := by decide
/-- Each move with its agent: reset, start, the core (with a yield), the core honouring a cancel request. -/
theorem witness_StatusMovesAsAllowed :
    after { launched [] with requests := [.reset] } (fun t => decide (t.status = .idle)) = true ∧
    after { State.reset with requests := [.start] } (fun t => decide (t.status = .running)) = true ∧
    after { launched [0] with requests := [.yield] } (fun t => decide (t.status = .halted)) = true ∧
    after { launched [] with cancelRequested := true } (fun t => decide (t.status = .cancelled)) = true := by decide
theorem witness_StepKeepsTheInvariant : Inv (launched [16, 3, 21]) ∧ ∃ t, step (launched [16, 3, 21]) = .next t :=
  ⟨⟨by decide, by decide, by decide, by decide, by decide⟩, _, rfl⟩
theorem witness_RunsAreReproducible :
    Agree (launched [19, 65, 0]) { launched [19, 65, 0] with output := [1, 2], faultInfo := 7 } ∧
    (launched [19, 65, 0]).requests = [] ∧
    ∃ t, Host.Core.run core 2 (launched [19, 65, 0]) = .next t ∧ t.status = .halted ∧ t.output = [65] :=
  ⟨⟨rfl, rfl, rfl, rfl, rfl, rfl, rfl, rfl, rfl⟩, rfl, _, rfl, rfl, rfl⟩
theorem witness_ResetClearsTheMachine :
    ({ launched [9] with requests := [.reset, .start] } : State).requests = .reset :: [.start] ∧
    after { launched [9] with requests := [.reset, .start] } (fun t => decide (t.mem = [])) = true := by decide
/-- An odd length, the first length too long, and the longest length that fits. -/
theorem witness_LoadPlacesTheImage :
    ({ State.reset with requests := [.load [0x13]] } : State).status = .idle ∧ [(0x13 : Byte)].length % 2 = 1 ∧
    ((List.replicate 65538 (0 : Byte)).length % 2 = 0 ∧ 65536 < (List.replicate 65538 (0 : Byte)).length) ∧
    ((List.replicate 65536 (0 : Byte)).length % 2 = 0 ∧ (List.replicate 65536 (0 : Byte)).length ≤ 65536) := by
  simp only [List.length_replicate]
  decide
theorem witness_LaunchLeavesTheLaunchState : [(19 : Word), 65, 0].length ≤ 32768 ∧
    ∃ s : State, s.requests = [.reset, .load (bytesOfWords [19, 65, 0]), .preload someRegs, .configure Config.default,
      .attach [.byte 65], .start] :=
  ⟨by decide, { launched [9] with requests := [.reset, .load (bytesOfWords [19, 65, 0]), .preload someRegs,
    .configure Config.default, .attach [.byte 65], .start] }, rfl⟩

end Sys2Proof.Tests
end

section
/-! The output sink (10_state.md R25): which meanings leave it as it was, and what `out` adds to it. -/

namespace Sys2Proof.Machine

variable {s t : State}

/-! ### The output after each kind of effect -/

theorem AfterInvalidOperand.output_eq (h : AfterInvalidOperand s t) : t.output = s.output := by
  obtain ⟨w, rfl⟩ := h
  exact recordFault_output s _ w

/-- The six register instructions of format F3 share their frame. -/
theorem binaryOp_output_eq {f : Cell → Cell → Cell} {a b c : Operand} (h : binaryOp f a b c s = .next t) :
    t.output = s.output := by
  obtain hbad | ⟨d, x, y, -, -, -, rfl⟩ := binaryOp_next' h
  exacts [hbad.output_eq, rfl]

/-! ### The output after an instruction -/

theorem exec_output_eq_of_ne_out {i : Instr} (hi : ∀ a, i ≠ .out a) (h : exec i s = .next t) :
    t.output = s.output := by
  cases i with
  | halt => rw [execHalt_next h, setStatus_output]
  | noop => rw [execNoop_next h, setPc_output]
  | eq | gt | add | mult | and | or => exact binaryOp_output_eq h
  | set a b =>
    obtain hbad | ⟨d, v, -, -, rfl⟩ := execSet_next h
    exacts [hbad.output_eq, rfl]
  | push a =>
    obtain hbad | ⟨v, -, rfl⟩ := execPush_next h
    exacts [hbad.output_eq, rfl]
  | pop a =>
    obtain hbad | ⟨d, -, ⟨-, rfl⟩ | ⟨v, st, -, rfl⟩⟩ := execPop_next h
    exacts [hbad.output_eq, rfl, rfl]
  | jmp a =>
    obtain hbad | ⟨g, -, rfl⟩ := execJmp_next h
    exacts [hbad.output_eq, rfl]
  | jt a b =>
    obtain hbad | ⟨x, g, -, -, rfl⟩ := execJt_next h
    exacts [hbad.output_eq, rfl]
  | jf a b =>
    obtain hbad | ⟨x, g, -, -, rfl⟩ := execJf_next h
    exacts [hbad.output_eq, rfl]
  | mod a b c =>
    obtain hbad | ⟨d, x, y, -, -, -, ⟨-, rfl⟩ | ⟨-, rfl⟩⟩ := execMod_next h
    exacts [hbad.output_eq, rfl, rfl]
  | not a b =>
    obtain hbad | ⟨d, x, -, -, rfl⟩ := execNot_next h
    exacts [hbad.output_eq, rfl]
  | rmem a b =>
    obtain hbad | ⟨d, ea, -, -, ⟨-, -, rfl⟩ | ⟨v, rfl⟩⟩ := execRmem_next h
    exacts [hbad.output_eq, rfl, rfl]
  | wmem a b =>
    obtain hbad | ⟨ea, v, -, -, rfl⟩ := execWmem_next h
    exacts [hbad.output_eq, rfl]
  | call a =>
    obtain hbad | ⟨g, -, ⟨-, rfl⟩ | ⟨-, rfl⟩⟩ := execCall_next h
    exacts [hbad.output_eq, rfl, rfl]
  | ret =>
    obtain ⟨-, rfl⟩ | ⟨g, st, -, rfl⟩ := execRet_next h
    exacts [rfl, rfl]
  | out a => exact absurd rfl (hi a)
  | inp a =>
    obtain hbad | ⟨d, -, ⟨-, rfl⟩ | ⟨later, -, rfl⟩ | ⟨x, later, -, rfl⟩ |
      ⟨later, -, ⟨-, rfl⟩ | ⟨-, rfl⟩⟩⟩ := execInp_next h
    exacts [hbad.output_eq, rfl, rfl, rfl, rfl, rfl]

/-- R120 with a valid operand: the value modulo 256 goes to the sink, then the pc advances. -/
theorem exec_out_of_resolve {a : Operand} {v : Cell} (h : resolve s a = .ok v) :
    exec (.out a) s = .next ((s.writeChar (BitVec.ofNat 8 (v.toNat % 256))).advance 2) :=
  withValue_resolved _ h

/-- Settles O35: by the inversion lemma of each meaning, no effect but that of `out` touches the sink. -/
theorem onlyOutWritesToTheSink : Obligations.OnlyOutWritesToTheSink := by
  intro i s
  refine ⟨fun hi t h => exec_output_eq_of_ne_out hi h, ?_⟩
  rintro a v rfl hv
  exact ⟨_, BitVec.ofNat 8 (v.toNat % 256), exec_out_of_resolve hv, by simp⟩

end Sys2Proof.Machine
end

section
/-! The memory primitives (20_memory.md R42, R49): outside 0..32767 they take the fault, and the word a Cell is stored
as is the one read back. -/

namespace Sys2Proof

/-- `zext_16` leaves bit 15 at 0 (R8). -/
theorem Cell.toWord_bit15 (c : Cell) : (Cell.toWord c).getLsbD 15 = false := by
  rw [Cell.toWord, BitVec.getLsbD_setWidth, BitVec.getLsbD_of_ge c 15 (Nat.le_refl 15), Bool.and_false]

end Sys2Proof

namespace Sys2Proof.Machine

theorem withMemRead_outside {addr : Nat} (s : State) (k : Word → Result) (h : 32768 ≤ addr) :
    withMemRead addr s k = raise .addressOutOfRange 0 s := by
  rw [withMemRead, if_neg (Nat.not_lt.mpr h)]

theorem withMemWrite_outside {addr : Nat} (v : Cell) (s : State) (k : State → Result) (h : 32768 ≤ addr) :
    withMemWrite addr v s k = raise .addressOutOfRange 0 s := by
  rw [withMemWrite, if_neg (Nat.not_lt.mpr h)]

theorem Memory.read_write_same {m : Memory} (h : Memory.wf m = true) (a : Nat) (w : Word) :
    Memory.read (Memory.write m a w) a = w := by
  rw [Memory.read_write h, if_pos rfl]

theorem Memory.read_write_other {m : Memory} (h : Memory.wf m = true) {a b : Nat} (w : Word) (hne : b ≠ a) :
    Memory.read (Memory.write m a w) b = Memory.read m b := by
  rw [Memory.read_write h, if_neg hne]

/-- Settles O24: each primitive's branch inside memory and outside it, and a read after the write. -/
theorem memoryPrimitivesReadAndWriteOneWord : Obligations.MemoryPrimitivesReadAndWriteOneWord := by
  intro addr v s hwf
  refine ⟨fun hin k => withMemRead_inside s k (Nat.lt_succ_of_le hin), fun hout k => ?_, fun hin => ?_,
    fun hout k => ?_⟩
  · rw [withMemRead_outside s k hout]
    exact raise_raises _ _ s
  · refine ⟨Memory.write s.mem addr v.toWord, fun k => withMemWrite_inside v s k (Nat.lt_succ_of_le hin), ?_, ?_,
      fun a hne => Memory.read_write_other hwf _ hne⟩
    · rw [Memory.read_write_same hwf, Cell.toWord_toNat]
    · rw [Memory.read_write_same hwf, Cell.toWord_bit15]
  · rw [withMemWrite_outside v s k hout]
    exact raise_raises _ _ s

end Sys2Proof.Machine
end

section
/-! The operand words and the instruction lengths (30_encoding.md R63 to R65, R70): the bit fields of an operand word
as numbers, the two accessors on each class of words, and how many operand words a row of the opcode table takes. -/

namespace Sys2Proof

/-! ### The bit fields of an operand word (R63) -/

theorem Word.bit15_eq (w : Word) : w.getLsbD 15 = decide (32768 ≤ w.toNat) := by
  rw [← BitVec.msb_eq_getLsbD_last, BitVec.msb_eq_decide]

theorem Word.bits14to3_toNat (w : Word) : (w.extractLsb' 3 12).toNat = w.toNat / 8 % 4096 := by
  rw [BitVec.extractLsb'_toNat, Nat.shiftRight_eq_div_pow]

theorem Word.bits2to0_toNat (w : Word) : (w.extractLsb' 0 3).toNat = w.toNat % 8 := by
  rw [BitVec.extractLsb'_toNat, Nat.shiftRight_zero]

/-- The Cell of a literal word loses no bit. -/
theorem Word.literal_toNat {w : Word} (h : w.toNat < 32768) : (w.setWidth 15).toNat = w.toNat := by
  rw [BitVec.toNat_setWidth, Nat.mod_eq_of_lt h]

/-- Settles O1: each range of words is read off the three bit fields as numbers. -/
theorem operandWordClasses : Obligations.OperandWordClasses := by
  intro w
  refine ⟨fun hlit => ⟨?_, w.setWidth 15, Operand.ofWord_literal (by omega), ?_, ?_⟩,
    fun hreg => ⟨?_, ?_, ?_⟩, fun hinv => ⟨?_, fun hzero => ?_, Operand.ofWord_invalid hinv⟩⟩
  · rw [Word.bit15_eq, decide_eq_false (by omega)]
  · exact Word.literal_toNat (by omega)
  · exact BitVec.setWidth_eq_extractLsb' (by decide)
  · rw [Word.bit15_eq, decide_eq_true hreg.1]
  · apply BitVec.eq_of_toNat_eq
    rw [Word.bits14to3_toNat, BitVec.toNat_ofNat]
    omega
  · obtain ⟨r, hr⟩ := Machine.dstWord_register hreg
    refine ⟨r, Operand.ofWord_register hr, hr.symm, ?_⟩
    rw [Word.bits2to0_toNat]
    omega
  · rw [Word.bit15_eq, decide_eq_true (by omega)]
  · have hfield := Word.bits14to3_toNat w
    rw [hzero, BitVec.toNat_ofNat] at hfield
    omega

/-! ### The operand words a format takes (R70) -/

/-- A format whose instructions all have `n` operands, `n` being the number of operand words the format takes. -/
inductive Format.Makes : Format → Nat → Prop
  | f0 {i : Instr} : i.operands.length = 0 → Makes (.f0 i) 0
  | f1 {mk : Operand → Instr} : (∀ a, (mk a).operands.length = 1) → Makes (.f1 mk) 1
  | f2 {mk : Operand → Operand → Instr} : (∀ a b, (mk a b).operands.length = 2) → Makes (.f2 mk) 2
  | f3 {mk : Operand → Operand → Operand → Instr} : (∀ a b c, (mk a b c).operands.length = 3) → Makes (.f3 mk) 3

theorem Format.Makes.take_ok {f : Format} {n : Nat} {ws rest : List Word} {i : Instr} (hf : f.Makes n)
    (h : f.take ws = .ok (i, rest)) : i.operands.length = n ∧ ws.length = n + rest.length := by
  cases hf with
  | f0 hi => cases h; exact ⟨hi, (Nat.zero_add _).symm⟩
  | f1 hmk =>
    match ws, h with
    | a :: _, rfl => exact ⟨hmk _, Nat.add_comm _ 1⟩
  | f2 hmk =>
    match ws, h with
    | a :: b :: _, rfl => exact ⟨hmk _ _, Nat.add_comm _ 2⟩
  | f3 hmk =>
    match ws, h with
    | a :: b :: c :: _, rfl => exact ⟨hmk _ _ _, Nat.add_comm _ 3⟩

theorem opcode_lt_of_row {n : Nat} {f : Format} (h : opcodeTable[n]? = some f) : n < 22 := by
  rw [← opcodeTable_length]
  exact (List.getElem?_eq_some_iff.1 h).1

/-- Row by row, the opcode map of R67 agrees with the operand counts of R70. -/
theorem opcodeTable_makes {n : Nat} {f : Format} (h : opcodeTable[n]? = some f) : f.Makes (Machine.operandCount n) := by
  have hn := opcode_lt_of_row h
  interval_cases n
  all_goals
    obtain rfl := Option.some.inj h
    constructor
    intros
    rfl

/-- What a successful decode says: the opcode word names a row, whose format takes the operand words. -/
theorem decode_cons_ok {op : Word} {ws rest : List Word} {i : Instr} (h : decode (op :: ws) = .ok (i, rest)) :
    ∃ f, opcodeTable[op.toNat]? = some f ∧ f.take ws = .ok (i, rest) := by
  cases hrow : opcodeTable[op.toNat]? with
  | none => simp [decode, hrow] at h
  | some f => exact ⟨f, rfl, by rwa [decode_cons op ws hrow] at h⟩

/-- Settles O2: the decoded instruction comes from the opcode's row, whose format fixes the operand count. -/
theorem lengthComesFromOpcodeAlone : Obligations.LengthComesFromOpcodeAlone := by
  intro op ws rest i h
  obtain ⟨f, hrow, htake⟩ := decode_cons_ok h
  obtain ⟨hoperands, hwords⟩ := (opcodeTable_makes hrow).take_ok htake
  have hlength : i.length = 1 + Machine.operandCount op.toNat := by rw [Instr.length, hoperands]
  refine ⟨opcode_lt_of_row hrow, hlength, ?_⟩
  rw [List.length_cons, hlength, hwords]
  omega

end Sys2Proof

namespace Sys2Proof.Machine

/-! ### The operand resolver (R64, R65) -/

/-- Settles O6: the resolver on each class of words, then the bound every Cell has. -/
theorem resolveGivesLiteralOrRegisterValue : Obligations.ResolveGivesLiteralOrRegisterValue := by
  intro w s
  refine ⟨fun hlit => ?_, fun r hr => resolve_registerWord s hr, fun hinv k => ?_,
    fun c hc => ⟨Nat.le_of_lt_succ c.isLt, fun k => withValue_resolved k hc⟩⟩
  · have hlt : w.toNat < 32768 := Nat.lt_succ_of_le hlit
    exact ⟨w.setWidth 15, resolve_literalWord s hlt, Word.literal_toNat hlt⟩
  · rw [withValue_invalidWord s k (by omega)]
    exact raise_raises _ _ s

theorem regidx_registerWord {w : Word} {d : Reg} (h : w.toNat = 32768 + d.val) : regidx (.ofWord w) = .ok d := by
  rw [Operand.ofWord_register h, regidx]

/-- Settles O7: a register word names its register, and every other word is refused as a destination. -/
theorem regidxNamesTheDestination : Obligations.RegidxNamesTheDestination := by
  intro w s k
  refine ⟨fun r hr => ⟨regidx_registerWord hr, withDst_registerWord s k hr⟩, fun hother => ?_⟩
  rw [withDst_otherWord s k (by omega)]
  exact raise_raises _ _ s

end Sys2Proof.Machine
end

section
/-! The system instruction noop (40_system.md R81): its decoding and its meaning. -/

namespace Sys2Proof

theorem decode_noop (rest : List Word) : decode (21 :: rest) = .ok (.noop, rest) := by
  have hrow : opcodeTable[(21 : Word).toNat]? = some (.f0 .noop) := rfl
  rw [decode_cons 21 rest hrow, Format.take]

end Sys2Proof

namespace Sys2Proof.Machine

theorem exec_noop (s : State) : exec .noop s = .next (s.setPc (s.pc + 1)) := rfl

/-- Settles O9: noop is a `setPc`, whose frame `setPc_moves` states. -/
theorem noopOnlyAdvancesThePc : Obligations.NoopOnlyAdvancesThePc := by
  intro rest s
  exact ⟨decode_noop rest, s.setPc (s.pc + 1), exec_noop s, setPc_moves s (s.pc + 1)⟩

end Sys2Proof.Machine
end

section
/-! The move and stack instructions set and push (41_move_stack.md R85, R86), from the rule that every register
instruction of format F2 follows. -/

namespace Sys2Proof.Machine

/-! ### A destination and a value, checked in this order (R132) -/

theorem withDst_withValue_invalidWord {A B : Word} (s : State) (k : Reg → Cell → Result) (hA : IsDstWord A)
    (hB : ¬ IsValueWord B) :
    (withDst (.ofWord A) s fun d => withValue (.ofWord B) s (k d)) = raise .invalidOperand B s := by
  obtain ⟨d, hd⟩ := dstWord_register hA
  rw [withDst_registerWord s _ hd, withValue_invalidWord s _ hB]

theorem withDst_withValue_resolved {A : Word} {b : Operand} {s : State} {d : Reg} {x : Cell} (k : Reg → Cell → Result)
    (hd : A.toNat = 32768 + d.val) (hx : resolve s b = .ok x) :
    (withDst (.ofWord A) s fun d => withValue b s (k d)) = k d x := by
  rw [withDst_registerWord s _ hd, withValue_resolved _ hx]

/-- An F2 row of the opcode table whose meaning writes `g` of its value to its destination meets the rule for `f`,
when `g` computes `f` on naturals. -/
theorem dstValueRule_of_row {opcode : Word} {mk : Operand → Operand → Instr} {f : Nat → Nat} {g : Cell → Cell}
    (hrow : opcodeTable[opcode.toNat]? = some (.f2 mk))
    (hexec : ∀ a b s, exec (mk a b) s = withDst a s fun d => withValue b s fun x => writeAndAdvance d (g x) 3 s)
    (hg : ∀ x, (g x).toNat = f x.toNat) : DstValueRule opcode mk f := by
  intro A B rest s
  rw [hexec]
  refine ⟨decode_cons opcode _ hrow, fun hA => ?_, fun hA hB => ?_, fun d x hd hx => ?_⟩
  · rw [withDst_otherWord s _ hA]
    exact raise_raises _ _ s
  · rw [withDst_withValue_invalidWord s _ hA hB]
    exact raise_raises _ _ s
  · rw [withDst_withValue_resolved _ hd hx, ← hg]
    exact writeAndAdvance_writes d (g x) 3 s

/-! ### set (R85) -/

theorem exec_set (a b : Operand) (s : State) :
    exec (.set a b) s = withDst a s fun d => withValue b s fun v => writeAndAdvance d v 3 s := rfl

/-- Settles O10: set is the F2 register rule with the value itself as the result. -/
theorem setWritesTheValue : Obligations.SetWritesTheValue :=
  dstValueRule_of_row rfl exec_set fun _ => rfl

/-! ### push (R86) -/

theorem decode_push (A : Word) (rest : List Word) : decode (2 :: A :: rest) = .ok (.push (.ofWord A), rest) := by
  have hrow : opcodeTable[(2 : Word).toNat]? = some (.f1 .push) := rfl
  rw [decode_cons 2 (A :: rest) hrow, Format.take]

theorem exec_push_invalidWord {A : Word} (s : State) (h : ¬ IsValueWord A) :
    exec (.push (.ofWord A)) s = raise .invalidOperand A s :=
  withValue_invalidWord s _ h

theorem exec_push_of_resolve {a : Operand} {s : State} {v : Cell} (h : resolve s a = .ok v) :
    exec (.push a) s = .next ((s.setStack (v :: s.stack)).setPc (s.pc + 2)) :=
  withValue_resolved _ h

/-- Settles O11: an invalid word raises, and a valid one makes push a `setStack` and a `setPc`, whose frame
`setStack_setPc_moves` states. -/
theorem pushAddsTheValueOnTop : Obligations.PushAddsTheValueOnTop := by
  intro A rest s
  refine ⟨decode_push A rest, fun hA => ?_, fun v hv => ?_⟩
  · rw [exec_push_invalidWord s hA]
    exact raise_raises _ _ s
  · exact ⟨_, exec_push_of_resolve hv, setStack_setPc_moves s (v :: s.stack) (s.pc + 2)⟩

end Sys2Proof.Machine
end

section
/-! The comparisons eq and gt (42_compare.md R90, R91), from the rule that every register instruction of format F3
built on `binaryOp` follows. -/

namespace Sys2Proof.Machine

/-! ### A destination and two values, checked in this order (R132) -/

theorem withDst_withValue_withValue_invalidWord {A B C : Word} (s : State) (k : Reg → Cell → Cell → Result)
    (hA : IsDstWord A) (hB : IsValueWord B) (hC : ¬ IsValueWord C) :
    (withDst (.ofWord A) s fun d => withValue (.ofWord B) s fun x => withValue (.ofWord C) s (k d x)) =
      raise .invalidOperand C s := by
  obtain ⟨d, hd⟩ := dstWord_register hA
  obtain ⟨x, hx⟩ := resolve_valueWord s hB
  rw [withDst_withValue_resolved _ hd hx, withValue_invalidWord s _ hC]

theorem withDst_withValue_withValue_resolved {A : Word} {b c : Operand} {s : State} {d : Reg} {x y : Cell}
    (k : Reg → Cell → Cell → Result) (hd : A.toNat = 32768 + d.val) (hx : resolve s b = .ok x)
    (hy : resolve s c = .ok y) :
    (withDst (.ofWord A) s fun d => withValue b s fun x => withValue c s (k d x)) = k d x y := by
  rw [withDst_withValue_resolved _ hd hx, withValue_resolved _ hy]

/-- An F3 row of the opcode table whose meaning is `binaryOp g` meets the rule for `f`, when `g` computes `f` on
naturals. -/
theorem threeOperandRule_of_row {opcode : Word} {mk : Operand → Operand → Operand → Instr} {f : Nat → Nat → Nat}
    {g : Cell → Cell → Cell} (hrow : opcodeTable[opcode.toNat]? = some (.f3 mk))
    (hexec : ∀ a b c s, exec (mk a b c) s = binaryOp g a b c s)
    (hg : ∀ x y, (g x y).toNat = f x.toNat y.toNat) : ThreeOperandRule opcode mk f := by
  intro A B C rest s
  rw [hexec, binaryOp]
  refine ⟨decode_cons opcode _ hrow, fun hA => ?_, fun hA hB => ?_, fun hA hB hC => ?_, fun d x y hd hx hy => ?_⟩
  · rw [withDst_otherWord s _ hA]
    exact raise_raises _ _ s
  · rw [withDst_withValue_invalidWord s _ hA hB]
    exact raise_raises _ _ s
  · rw [withDst_withValue_withValue_invalidWord s _ hA hB hC]
    exact raise_raises _ _ s
  · rw [withDst_withValue_withValue_resolved _ hd hx hy, ← hg]
    exact writeAndAdvance_writes d (g x y) 4 s

/-! ### eq and gt (R90, R91) -/

/-- A truth value is written as exactly 1 or 0. -/
theorem cellOfBool_decide_toNat (p : Prop) [Decidable p] : (cellOfBool (decide p)).toNat = if p then 1 else 0 := by
  by_cases hp : p <;> simp [cellOfBool, hp]

theorem exec_eq (a b c : Operand) (s : State) :
    exec (.eq a b c) s = binaryOp (fun x y => cellOfBool (decide (x = y))) a b c s := rfl

theorem exec_gt (a b c : Operand) (s : State) :
    exec (.gt a b c) s = binaryOp (fun x y => cellOfBool (decide (x.toNat > y.toNat))) a b c s := rfl

/-- Settles O13: eq is the F3 register rule, and Cells are equal exactly when their numbers are. -/
theorem eqWritesOneOrZero : Obligations.EqWritesOneOrZero :=
  threeOperandRule_of_row rfl exec_eq fun x y => by
    simp only [cellOfBool_decide_toNat, BitVec.toNat_inj]

/-- Settles O14: gt is the F3 register rule, comparing the numbers of the Cells. -/
theorem gtComparesUnsigned : Obligations.GtComparesUnsigned :=
  threeOperandRule_of_row rfl exec_gt fun _ _ => cellOfBool_decide_toNat _

end Sys2Proof.Machine
end

section
/-! The unconditional jump jmp (43_jumps.md R95): its decoding and the two outcomes of its meaning. -/

namespace Sys2Proof

theorem decode_jmp (A : Word) (rest : List Word) : decode (6 :: A :: rest) = .ok (.jmp (.ofWord A), rest) := by
  have hrow : opcodeTable[(6 : Word).toNat]? = some (.f1 .jmp) := rfl
  rw [decode_cons 6 (A :: rest) hrow, Format.take]

end Sys2Proof

namespace Sys2Proof.Machine

theorem exec_jmp_invalidWord {A : Word} (s : State) (h : ¬ IsValueWord A) :
    exec (.jmp (.ofWord A)) s = raise .invalidOperand A s :=
  withValue_invalidWord s _ h

theorem exec_jmp_of_resolve {a : Operand} {s : State} {g : Cell} (h : resolve s a = .ok g) :
    exec (.jmp a) s = .next (s.setPc g.toWord) :=
  withValue_resolved _ h

/-- Settles O21: an invalid word raises, and a valid one makes jmp a `setPc` to its value, whose frame `setPc_moves`
states. -/
theorem jmpTakesTheTarget : Obligations.JmpTakesTheTarget := by
  intro A rest s
  refine ⟨decode_jmp A rest, fun hA => ?_, fun g hg => ?_⟩
  · rw [exec_jmp_invalidWord s hA]
    exact raise_raises _ _ s
  · exact ⟨_, exec_jmp_of_resolve hg, setPc_moves s g.toWord⟩

end Sys2Proof.Machine
end

section
/-! The arithmetic instructions add, mult and mod (44_arithmetic.md R100 to R102), from one law of the
reduction before the write. -/

namespace Sys2Proof.Machine

/-! ### The one reduction before the write (R103, R104) -/

@[simp] theorem reduceToCell_toNat (n : Nat) : (reduceToCell n).toNat = n % 32768 := by
  rw [reduceToCell, modulus, BitVec.toNat_ofNat, Nat.mod_mod]

/-- A remainder of Cells is a Cell: the reduction leaves it as it is (R102). -/
theorem reduceToCell_mod_toNat (x y : Cell) : (reduceToCell (x.toNat % y.toNat)).toNat = x.toNat % y.toNat := by
  rw [reduceToCell_toNat, Nat.mod_eq_of_lt ((Nat.mod_le _ _).trans_lt x.isLt)]

/-! ### add and mult (R100, R101) -/

theorem exec_add (a b c : Operand) (s : State) :
    exec (.add a b c) s = binaryOp (fun x y => reduceToCell (x.toNat + y.toNat)) a b c s := rfl

theorem exec_mult (a b c : Operand) (s : State) :
    exec (.mult a b c) s = binaryOp (fun x y => reduceToCell (x.toNat * y.toNat)) a b c s := rfl

/-- Settles O15: add is the F3 register rule with the exact sum, reduced once. -/
theorem addWrapsModulo32768 : Obligations.AddWrapsModulo32768 :=
  threeOperandRule_of_row rfl exec_add fun x y => reduceToCell_toNat (x.toNat + y.toNat)

/-- Settles O16: mult is the F3 register rule with the exact product, reduced once. -/
theorem multWrapsModulo32768 : Obligations.MultWrapsModulo32768 :=
  threeOperandRule_of_row rfl exec_mult fun x y => reduceToCell_toNat (x.toNat * y.toNat)

/-! ### mod (R102) -/

theorem exec_mod (a b c : Operand) (s : State) :
    exec (.mod a b c) s = withDst a s fun d => withValue b s fun x => withValue c s fun y =>
      if y.toNat = 0 then raise .modByZero 0 s else writeAndAdvance d (reduceToCell (x.toNat % y.toNat)) 4 s := rfl

/-- Settles O17: the operand faults come first, in order, and then the divisor decides; the quotient and the remainder
are those of the natural numbers. -/
theorem modGivesTheRemainder : Obligations.ModGivesTheRemainder := by
  intro A B C rest s
  rw [exec_mod]
  refine ⟨decode_cons 11 _ (f := .f3 .mod) rfl, fun hA => ?_, fun hA hB => ?_, fun hA hB hC => ?_,
    fun d x y hd hx hy => ?_⟩
  · rw [withDst_otherWord s _ hA]
    exact raise_raises _ _ s
  · rw [withDst_withValue_invalidWord s _ hA hB]
    exact raise_raises _ _ s
  · rw [withDst_withValue_withValue_invalidWord s _ hA hB hC]
    exact raise_raises _ _ s
  · rw [withDst_withValue_withValue_resolved _ hd hx hy]
    refine ⟨fun hzero => ?_, fun hpos => ?_⟩
    · rw [if_pos hzero]
      exact raise_raises _ _ s
    · obtain ⟨t, hnext, hwrites⟩ := writeAndAdvance_writes d (reduceToCell (x.toNat % y.toNat)) 4 s
      rw [reduceToCell_mod_toNat] at hwrites
      rw [if_neg hpos]
      exact ⟨t, x.toNat / y.toNat, x.toNat % y.toNat, hnext, (Nat.div_add_mod' _ _).symm,
        Nat.mod_lt _ (Nat.pos_of_ne_zero hpos), hwrites⟩

end Sys2Proof.Machine
end

section
/-! The logic instructions and, or and not (45_logic.md R105 to R107), from the rules that the register instructions
of formats F3 and F2 follow. -/

namespace Sys2Proof.Machine

/-! ### and and or (R105, R106) -/

theorem exec_and (a b c : Operand) (s : State) : exec (.and a b c) s = binaryOp (fun x y => x &&& y) a b c s := rfl

theorem exec_or (a b c : Operand) (s : State) : exec (.or a b c) s = binaryOp (fun x y => x ||| y) a b c s := rfl

/-- Settles O18: and is the F3 register rule with the bitwise and, which on Cells is that of their numbers. -/
theorem andIsBitwise : Obligations.AndIsBitwise :=
  threeOperandRule_of_row rfl exec_and BitVec.toNat_and

/-- Settles O19: or is the F3 register rule with the bitwise or, which on Cells is that of their numbers. -/
theorem orIsBitwise : Obligations.OrIsBitwise :=
  threeOperandRule_of_row rfl exec_or BitVec.toNat_or

/-! ### not (R107) -/

theorem exec_not (a b : Operand) (s : State) :
    exec (.not a b) s = withDst a s fun d => withValue b s fun x =>
      writeAndAdvance d (BitVec.ofNat 15 (32767 - x.toNat)) 3 s := rfl

/-- The complement of a Cell is a Cell: bit 15 and above are never set. -/
theorem complement_toNat (x : Cell) : (BitVec.ofNat 15 (32767 - x.toNat)).toNat = 32767 - x.toNat :=
  Nat.mod_eq_of_lt (Nat.lt_succ_of_le (Nat.sub_le 32767 x.toNat))

/-- Settles O20: not is the F2 register rule with the complement, which needs no reduction. -/
theorem notIsFifteenBitComplement : Obligations.NotIsFifteenBitComplement :=
  dstValueRule_of_row rfl exec_not complement_toNat

end Sys2Proof.Machine
end

section
/-! The store wmem (46_memory_access.md R111): its decoding, the faults of its two value operands in order, and the
state it makes with valid operands. -/

namespace Sys2Proof

theorem decode_wmem (A B : Word) (rest : List Word) :
    decode (16 :: A :: B :: rest) = .ok (.wmem (.ofWord A) (.ofWord B), rest) := by
  have hrow : opcodeTable[(16 : Word).toNat]? = some (.f2 .wmem) := rfl
  rw [decode_cons 16 (A :: B :: rest) hrow, Format.take]

end Sys2Proof

namespace Sys2Proof.Machine

/-! ### Two values, checked in this order (R132) -/

theorem withValue_withValue_invalidWord {A B : Word} (s : State) (k : Cell → Cell → Result) (hA : IsValueWord A)
    (hB : ¬ IsValueWord B) :
    (withValue (.ofWord A) s fun x => withValue (.ofWord B) s (k x)) = raise .invalidOperand B s := by
  obtain ⟨x, hx⟩ := resolve_valueWord s hA
  rw [withValue_resolved _ hx, withValue_invalidWord s _ hB]

theorem withValue_withValue_resolved {a b : Operand} {s : State} {x y : Cell} (k : Cell → Cell → Result)
    (hx : resolve s a = .ok x) (hy : resolve s b = .ok y) :
    (withValue a s fun x => withValue b s (k x)) = k x y := by
  rw [withValue_resolved _ hx, withValue_resolved _ hy]

/-! ### wmem (R111) -/

theorem exec_wmem (a b : Operand) (s : State) :
    exec (.wmem a b) s = withValue a s fun ea => withValue b s fun v =>
      withMemWrite (effectiveAddress ea) v s fun s' => .next (s'.advance 3) := rfl

/-- The range check of the write cannot fail: with valid operands wmem is a `setMem` and a `setPc`. -/
theorem exec_wmem_of_resolve {a b : Operand} {s : State} {ea v : Cell} (hea : resolve s a = .ok ea)
    (hv : resolve s b = .ok v) :
    exec (.wmem a b) s = .next ((s.setMem (Memory.write s.mem ea.toNat v.toWord)).setPc (s.pc + 3)) := by
  rw [exec_wmem, withValue_withValue_resolved _ hea hv, withMemWrite_inside v s _ (effectiveAddress_inside ea)]
  rfl

/-- Settles O26: the operand faults come first, in order; then the read after the write decides what each address
holds, and the rest of the state is untouched by `setMem` and `setPc`. -/
theorem wmemStoresTheValue : Obligations.WmemStoresTheValue := by
  intro A B rest s hwf
  refine ⟨decode_wmem A B rest, fun hA => ?_, fun hA hB => ?_, fun ea v hea hv => ?_⟩
  · rw [exec_wmem, withValue_invalidWord s _ hA]
    exact raise_raises _ _ s
  · rw [exec_wmem, withValue_withValue_invalidWord s _ hA hB]
    exact raise_raises _ _ s
  · refine ⟨_, exec_wmem_of_resolve hea hv, ?stored, ?others, fun _ => rfl, rfl, rfl, ⟨rfl, rfl, rfl, rfl⟩, ⟨rfl, rfl⟩,
      rfl, rfl, rfl⟩
    case stored => rw [setPc_mem, setMem_mem, Memory.read_write_same hwf, Cell.toWord_toNat]
    case others =>
      intro a hne
      rw [setPc_mem, setMem_mem, Memory.read_write_other hwf _ hne]

end Sys2Proof.Machine
end

section
/-! The character output out (48_io.md R120): its decoding, the fault of its value operand, and the byte it writes. -/

namespace Sys2Proof

theorem decode_out (A : Word) (rest : List Word) : decode (19 :: A :: rest) = .ok (.out (.ofWord A), rest) := by
  have hrow : opcodeTable[(19 : Word).toNat]? = some (.f1 .out) := rfl
  rw [decode_cons 19 (A :: rest) hrow, Format.take]

/-- A number reduced modulo 256 is a byte: taking it as one loses nothing. -/
theorem Byte.ofNat_mod_toNat (n : Nat) : (BitVec.ofNat 8 (n % 256)).toNat = n % 256 := by
  rw [BitVec.toNat_ofNat, Nat.mod_mod]

end Sys2Proof

namespace Sys2Proof.Machine

theorem exec_out_invalidWord {A : Word} (s : State) (h : ¬ IsValueWord A) :
    exec (.out (.ofWord A)) s = raise .invalidOperand A s :=
  withValue_invalidWord s _ h

/-- Settles O31: an invalid word raises, which keeps the output; a valid one makes out a `writeChar` and an `advance`,
and the byte written keeps the value modulo 256. -/
theorem outWritesOneByte : Obligations.OutWritesOneByte := by
  intro A rest s
  refine ⟨decode_out A rest, fun hA => ?_, fun v hv => ?_⟩
  · rw [exec_out_invalidWord s hA]
    exact raise_raises _ _ s
  · exact ⟨_, BitVec.ofNat 8 (v.toNat % 256), exec_out_of_resolve hv, rfl, Byte.ofNat_mod_toNat v.toNat, rfl, rfl,
      fun _ => rfl, rfl, fun _ => rfl, ⟨rfl, rfl, rfl, rfl⟩, rfl, rfl, rfl⟩

end Sys2Proof.Machine
end

section
/-! The round trips of the decoder and the encoder (30_encoding.md sections 1 to 4): a row of the opcode table builds an
instruction from operands, and taking operand words is undone by writing them. -/

namespace Sys2Proof

/-- A format makes this instruction of these operands. -/
inductive Format.Builds : Format → List Operand → Instr → Prop
  | f0 {i : Instr} : Builds (.f0 i) [] i
  | f1 {mk : Operand → Instr} (a : Operand) : Builds (.f1 mk) [a] (mk a)
  | f2 {mk : Operand → Operand → Instr} (a b : Operand) : Builds (.f2 mk) [a, b] (mk a b)
  | f3 {mk : Operand → Operand → Operand → Instr} (a b c : Operand) : Builds (.f3 mk) [a, b, c] (mk a b c)

/-! ### One row of the opcode table (R67) -/

/-- Row n writes the opcode n and one word for each operand. -/
theorem encode_of_row {n : Nat} {f : Format} {ops : List Operand} {i : Instr} (hrow : opcodeTable[n]? = some f)
    (hb : f.Builds ops i) :
    encode i = BitVec.ofNat 16 n :: ops.map Operand.word ∧ i.operands.map Prod.snd = ops := by
  have hn := opcode_lt_of_row hrow
  interval_cases n
  all_goals
    obtain rfl := Option.some.inj hrow
    cases hb
    exact ⟨rfl, rfl⟩

/-- Every instruction stands in a row. -/
theorem exists_row (i : Instr) :
    ∃ (n : Nat) (f : Format) (ops : List Operand), opcodeTable[n]? = some f ∧ f.Builds ops i := by
  cases i with
  | halt => exact ⟨0, _, _, rfl, .f0⟩
  | set a b => exact ⟨1, _, _, rfl, .f2 a b⟩
  | push a => exact ⟨2, _, _, rfl, .f1 a⟩
  | pop a => exact ⟨3, _, _, rfl, .f1 a⟩
  | eq a b c => exact ⟨4, _, _, rfl, .f3 a b c⟩
  | gt a b c => exact ⟨5, _, _, rfl, .f3 a b c⟩
  | jmp a => exact ⟨6, _, _, rfl, .f1 a⟩
  | jt a b => exact ⟨7, _, _, rfl, .f2 a b⟩
  | jf a b => exact ⟨8, _, _, rfl, .f2 a b⟩
  | add a b c => exact ⟨9, _, _, rfl, .f3 a b c⟩
  | mult a b c => exact ⟨10, _, _, rfl, .f3 a b c⟩
  | mod a b c => exact ⟨11, _, _, rfl, .f3 a b c⟩
  | and a b c => exact ⟨12, _, _, rfl, .f3 a b c⟩
  | or a b c => exact ⟨13, _, _, rfl, .f3 a b c⟩
  | not a b => exact ⟨14, _, _, rfl, .f2 a b⟩
  | rmem a b => exact ⟨15, _, _, rfl, .f2 a b⟩
  | wmem a b => exact ⟨16, _, _, rfl, .f2 a b⟩
  | call a => exact ⟨17, _, _, rfl, .f1 a⟩
  | ret => exact ⟨18, _, _, rfl, .f0⟩
  | out a => exact ⟨19, _, _, rfl, .f1 a⟩
  | inp a => exact ⟨20, _, _, rfl, .f1 a⟩
  | noop => exact ⟨21, _, _, rfl, .f0⟩

/-! ### Taking the operand words -/

/-- Operand words written under their own class are taken back. -/
theorem Format.Builds.take_words {f : Format} {ops : List Operand} {i : Instr} (hb : f.Builds ops i)
    (hc : ∀ o ∈ ops, o.classified = true) (rest : List Word) :
    f.take (ops.map Operand.word ++ rest) = .ok (i, rest) := by
  cases hb with
  | f0 => rfl
  | f1 a => simp [Format.take, Operand.ofWord_word, hc]
  | f2 a b => simp [Format.take, Operand.ofWord_word, hc]
  | f3 a b c => simp [Format.take, Operand.ofWord_word, hc]

/-- What is taken is an instruction built of the classes of the words taken. -/
theorem Format.builds_of_take {f : Format} {ws rest : List Word} {i : Instr} (h : f.take ws = .ok (i, rest)) :
    ∃ us, ws = us ++ rest ∧ f.Builds (us.map Operand.ofWord) i := by
  match f, ws, h with
  | .f0 _, _, rfl => exact ⟨[], rfl, .f0⟩
  | .f1 _, a :: _, rfl => exact ⟨[a], rfl, .f1 _⟩
  | .f2 _, a :: b :: _, rfl => exact ⟨[a, b], rfl, .f2 _ _⟩
  | .f3 _, a :: b :: c :: _, rfl => exact ⟨[a, b, c], rfl, .f3 _ _ _⟩

theorem Operand.map_word_ofWord (us : List Word) : (us.map Operand.ofWord).map Operand.word = us := by
  rw [List.map_map]
  exact List.map_id'' Operand.word_ofWord us

theorem Instr.classified_iff (i : Instr) :
    i.classified = true ↔ ∀ o ∈ i.operands.map Prod.snd, o.classified = true := by
  simp only [Instr.classified, List.all_eq_true, List.forall_mem_map]

/-! ### The round trips -/

/-- Settles O3: the instruction's row is found by its opcode, and takes back the operand words. -/
theorem decodeOfEncodeIsTheInstruction : Obligations.DecodeOfEncodeIsTheInstruction := by
  intro i rest hc
  obtain ⟨n, f, ops, hrow, hb⟩ := exists_row i
  obtain ⟨henc, hops⟩ := encode_of_row hrow hb
  have hn : (BitVec.ofNat 16 n).toNat = n := Nat.mod_eq_of_lt (by have := opcode_lt_of_row hrow; omega)
  rw [henc, List.cons_append, decode_cons _ _ (hn.symm ▸ hrow)]
  exact hb.take_words (hops ▸ (Instr.classified_iff i).1 hc) rest

/-- Settles O4: the row that decoded the words writes them again, and the operands are classes of words. -/
theorem encodeOfDecodeIsTheWords : Obligations.EncodeOfDecodeIsTheWords := by
  intro ws rest i h
  cases ws with
  | nil => cases h
  | cons op ws =>
    obtain ⟨f, hrow, htake⟩ := decode_cons_ok h
    obtain ⟨us, rfl, hb⟩ := Format.builds_of_take htake
    obtain ⟨henc, hops⟩ := encode_of_row hrow hb
    refine ⟨?_, ?_⟩
    · rw [henc, Operand.map_word_ofWord, BitVec.ofNat_toNat, BitVec.setWidth_eq, List.cons_append]
    · rw [Instr.classified_iff, hops]
      exact List.forall_mem_map.2 fun w _ => Operand.ofWord_classified w

/-- Settles O5: the decoder evaluated on each of the word sequences. -/
theorem sampleWordsDecode : Obligations.SampleWordsDecode := by
  unfold Obligations.SampleWordsDecode
  and_intros <;> decide

end Sys2Proof
end

section
/-! The remaining instructions one by one (40_system.md to 48_io.md): what each meaning computes once its operands are
known, and the rule of each. -/

namespace Sys2Proof.Machine

variable {s : State}

/-! ### halt (R80) -/

theorem exec_halt (s : State) : exec .halt s = halt s := rfl

/-- Settles O8: halt is the normal end, whose frame `halt_haltsRun` states. -/
theorem haltEndsTheRun : Obligations.HaltEndsTheRun := by
  intro rest s
  exact ⟨decode_cons 0 rest (f := .f0 .halt) rfl, halt_haltsRun s⟩

/-! ### pop (R87) -/

theorem exec_pop_nil (d : Reg) (h : s.stack = []) : exec (.pop (.register d)) s = raise .stackUnderflow 0 s := by
  simp only [exec, execPop, withDst, regidx, h]

theorem exec_pop_cons (d : Reg) {v : Cell} {st : List Cell} (h : s.stack = v :: st) :
    exec (.pop (.register d)) s = writeAndAdvance d v 2 (s.setStack st) := by
  simp only [exec, execPop, withDst, regidx, h]

/-- Settles O12: the destination is checked first, then the stack decides. -/
theorem popMovesTheTopToTheRegister : Obligations.PopMovesTheTopToTheRegister := by
  intro A rest s
  refine ⟨decode_cons 3 _ (f := .f1 .pop) rfl, fun hA => ?_, fun hA hs => ?_, fun d v st hd hs => ?_⟩
  · have hbad : exec (.pop (.ofWord A)) s = raise .invalidOperand A s := withDst_otherWord s _ hA
    rw [hbad]
    exact raise_raises _ _ s
  · obtain ⟨d, hd⟩ := dstWord_register hA
    rw [Operand.ofWord_register hd, exec_pop_nil d hs]
    exact raise_raises _ _ s
  · rw [Operand.ofWord_register hd, exec_pop_cons d hs]
    exact writeAndAdvance_writes d v 2 (s.setStack st)

/-! ### jt and jf (R96, R97) -/

theorem exec_jt (a b : Operand) (s : State) :
    exec (.jt a b) s =
      withValue a s fun x => withValue b s fun g => .next (s.setPc (if x = 0 then s.pc + 3 else g.toWord)) := by
  have hmove (x g : Cell) :
      (if isNonzero x then s.jumpTo g else s.advance 3) = s.setPc (if x = 0 then s.pc + 3 else g.toWord) := by
    simp only [isNonzero_iff, ite_not, apply_ite s.setPc]
    rfl
  simp only [← hmove]
  rfl

theorem exec_jf (a b : Operand) (s : State) :
    exec (.jf a b) s =
      withValue a s fun x => withValue b s fun g => .next (s.setPc (if x = 0 then g.toWord else s.pc + 3)) := by
  have hmove (x g : Cell) :
      (if isNonzero x then s.advance 3 else s.jumpTo g) = s.setPc (if x = 0 then g.toWord else s.pc + 3) := by
    simp only [isNonzero_iff, ite_not, apply_ite s.setPc]
    rfl
  simp only [← hmove]
  rfl

/-- An F2 row of two values whose meaning moves the pc to `p`, which is the target when `taken` and the next instruction
when not, meets the rule of a conditional jump. -/
theorem conditionalJumpRule_of_row {opcode : Word} {mk : Operand → Operand → Instr} {taken : Nat → Prop}
    {p : State → Cell → Cell → BitVec 16} (hrow : opcodeTable[opcode.toNat]? = some (.f2 mk))
    (hexec : ∀ a b s, exec (mk a b) s = withValue a s fun x => withValue b s fun g => .next (s.setPc (p s x g)))
    (htaken : ∀ s x g, taken x.toNat → p s x g = g.toWord)
    (huntaken : ∀ s x g, ¬ taken x.toNat → p s x g = s.pc + 3) : ConditionalJumpRule opcode mk taken := by
  intro A B rest s
  rw [hexec]
  refine ⟨decode_cons opcode _ hrow, fun hA => ?_, fun hA hB => ?_, fun x g hx hg => ?_⟩
  · rw [withValue_invalidWord s _ hA]
    exact raise_raises _ _ s
  · rw [withValue_withValue_invalidWord s _ hA hB]
    exact raise_raises _ _ s
  · rw [withValue_withValue_resolved _ hx hg]
    exact ⟨fun h => ⟨_, rfl, htaken s x g h ▸ setPc_moves s _⟩, fun h => ⟨_, rfl, huntaken s x g h ▸ setPc_moves s _⟩⟩

theorem cell_toNat_eq_zero_iff (x : Cell) : x.toNat = 0 ↔ x = 0 :=
  BitVec.toNat_inj (y := 0#15)

/-- Settles O22: jt is the conditional jump taken when its condition is not 0. -/
theorem jtJumpsOnNonzero : Obligations.JtJumpsOnNonzero :=
  conditionalJumpRule_of_row rfl exec_jt (fun _ x _ h => if_neg (mt (cell_toNat_eq_zero_iff x).2 h))
    (fun _ x _ h => if_pos ((cell_toNat_eq_zero_iff x).1 (not_not.1 h)))

/-- Settles O23: jf is the conditional jump taken when its condition is 0. -/
theorem jfJumpsOnZero : Obligations.JfJumpsOnZero :=
  conditionalJumpRule_of_row rfl exec_jf (fun _ x _ h => if_pos ((cell_toNat_eq_zero_iff x).1 h))
    (fun _ x _ h => if_neg (mt (cell_toNat_eq_zero_iff x).2 h))

/-! ### rmem (R110) -/

/-- What rmem makes of the word it has read. -/
def rmemWord (d : Reg) (w : Word) (s : State) : Result :=
  if w.toNat < modulus then writeAndAdvance d (BitVec.ofNat 15 w.toNat) 3 s
  else match s.config.rmemWide with
    | .fault => raise .valueOutOfRange w s
    | .reduce => writeAndAdvance d (BitVec.ofNat 15 (w.toNat % modulus)) 3 s

theorem exec_rmem (a b : Operand) (s : State) :
    exec (.rmem a b) s = withDst a s fun d => withValue b s fun ea => rmemWord d (Memory.read s.mem ea.toNat) s := by
  have hread (d : Reg) (ea : Cell) : withMemRead (effectiveAddress ea) s (fun w => rmemWord d w s) =
      rmemWord d (Memory.read s.mem ea.toNat) s := withMemRead_inside s _ (effectiveAddress_inside ea)
  simp only [← hread]
  rfl

theorem rmemWord_narrow (d : Reg) {w : Word} (s : State) (h : w.toNat < 32768) :
    rmemWord d w s = writeAndAdvance d (BitVec.ofNat 15 w.toNat) 3 s :=
  if_pos h

theorem rmemWord_fault (d : Reg) {w : Word} (h : 32768 ≤ w.toNat) (hp : s.config.rmemWide = .fault) :
    rmemWord d w s = raise .valueOutOfRange w s := by
  rw [rmemWord, if_neg (Nat.not_lt.2 h), hp]

theorem rmemWord_reduce (d : Reg) {w : Word} (h : 32768 ≤ w.toNat) (hp : s.config.rmemWide = .reduce) :
    rmemWord d w s = writeAndAdvance d (reduceToCell w.toNat) 3 s := by
  rw [rmemWord, if_neg (Nat.not_lt.2 h), hp]
  rfl

/-- Settles O25: the operand faults come first, in order; then the word read and the policy decide. -/
theorem rmemLoadsTheWord : Obligations.RmemLoadsTheWord := by
  intro A B rest s
  rw [exec_rmem]
  refine ⟨decode_cons 15 _ (f := .f2 .rmem) rfl, fun hA => ?_, fun hA hB => ?_, fun d ea hd hea => ?_⟩
  · rw [withDst_otherWord s _ hA]
    exact raise_raises _ _ s
  · rw [withDst_withValue_invalidWord s _ hA hB]
    exact raise_raises _ _ s
  · rw [withDst_withValue_resolved (fun d ea => rmemWord d (Memory.read s.mem ea.toNat) s) hd hea]
    refine ⟨fun hw => ?_, fun hw hp => ?_, fun hw hp => ?_⟩
    · rw [rmemWord_narrow d s (Nat.lt_succ_of_le hw)]
      have hv : (BitVec.ofNat 15 (Memory.read s.mem ea.toNat).toNat).toNat = (Memory.read s.mem ea.toNat).toNat :=
        Nat.mod_eq_of_lt (Nat.lt_succ_of_le hw)
      obtain ⟨t, hnext, hwrites⟩ := writeAndAdvance_writes d (BitVec.ofNat 15 (Memory.read s.mem ea.toNat).toNat) 3 s
      exact ⟨t, hnext, hv ▸ hwrites⟩
    · rw [rmemWord_fault d hw hp]
      exact raise_raises _ _ s
    · rw [rmemWord_reduce d hw hp]
      exact reduceToCell_toNat (Memory.read s.mem ea.toNat).toNat ▸ writeAndAdvance_writes d (reduceToCell _) 3 s

/-! ### wmem and the next fetch (20_memory.md R54) -/

/-- Word k of what is fetched is the word at the k-th address from the pc. -/
theorem fetchWords_get (s : State) {k : Nat} (hk : k < 4) (ha : s.pc.toNat + k < 32768) :
    (fetchWords s)[k]? = some (Memory.read s.mem (s.pc.toNat + k)) :=
  Memory.window_get s.mem s.pc.toNat 4 k hk ha

/-- Settles O27: the fetch reads memory itself, where the stored word stands. -/
theorem storeIsSeenByTheNextFetch : Obligations.StoreIsSeenByTheNextFetch := by
  intro a b ea v s hwf hea hv
  refine ⟨_, exec_wmem_of_resolve hea hv, fun k hk hpc => ?_⟩
  rw [fetchWords_get _ hk (hpc.trans_lt (effectiveAddress_inside ea)), hpc, setPc_mem, setMem_mem,
    Memory.read_write_same hwf]

/-! ### call and ret (R115, R116) -/

theorem exec_call_of_resolve {a : Operand} {g : Cell} (hg : resolve s a = .ok g) (hp : s.pc.toNat + 2 < 32768) :
    exec (.call a) s =
      .next ((s.setStack (BitVec.ofNat 15 (s.pc.toNat + 2) :: s.stack)).setPc g.toWord) :=
  (withValue_resolved _ hg).trans (if_pos hp)

theorem exec_call_outside {a : Operand} {g : Cell} (hg : resolve s a = .ok g) (hp : 32768 ≤ s.pc.toNat + 2) :
    exec (.call a) s = raise .addressOutOfRange 0 s :=
  (withValue_resolved _ hg).trans (if_neg (Nat.not_lt.2 hp))

/-- Settles O28: after the operand's check the return address decides. -/
theorem callPushesTheReturnAddress : Obligations.CallPushesTheReturnAddress := by
  intro A rest s
  refine ⟨decode_cons 17 _ (f := .f1 .call) rfl, fun hA => ?_, fun g hg => ⟨fun hp => ?_, fun hp => ?_⟩⟩
  · have hbad : exec (.call (.ofWord A)) s = raise .invalidOperand A s := withValue_invalidWord s _ hA
    rw [hbad]
    exact raise_raises _ _ s
  · have hlt : s.pc.toNat + 2 < 32768 := Nat.lt_succ_of_le hp
    exact ⟨_, BitVec.ofNat 15 (s.pc.toNat + 2), exec_call_of_resolve hg hlt, Nat.mod_eq_of_lt hlt,
      setStack_setPc_moves s _ _⟩
  · rw [exec_call_outside hg hp]
    exact raise_raises _ _ s

theorem exec_ret_nil (h : s.stack = []) : exec .ret s = halt s := by
  simp only [exec, execRet, h]

theorem exec_ret_cons {g : Cell} {st : List Cell} (h : s.stack = g :: st) :
    exec .ret s = .next ((s.setStack st).setPc g.toWord) := by
  simp only [exec, execRet, h, jumpTo_eq]

/-- Settles O29: the stack decides. -/
theorem retPopsThePcOrHalts : Obligations.RetPopsThePcOrHalts := by
  intro rest s
  refine ⟨decode_cons 18 rest (f := .f0 .ret) rfl, fun hs => ?_, fun g st hs => ?_⟩
  · rw [exec_ret_nil hs]
    exact halt_haltsRun s
  · exact ⟨_, exec_ret_cons hs, setStack_setPc_moves s st _⟩

/-! ### The stack as a whole (R16) -/

theorem execAll_cons {i : Instr} {is : List Instr} {t : State} (h : exec i s = .next t) :
    execAll (i :: is) s = execAll is t := by
  rw [execAll, h]

/-- Pushing values one after another leaves the last on top. -/
theorem execAll_pushes (vs : List Cell) (is : List Instr) (s : State) :
    ∃ t, t.stack = vs.reverse ++ s.stack ∧
      execAll (vs.map (fun v => .push (.literal v)) ++ is) s = execAll is t := by
  induction vs generalizing s with
  | nil => exact ⟨s, rfl, rfl⟩
  | cons v vs ih =>
    obtain ⟨t, hstack, hrun⟩ := ih ((s.setStack (v :: s.stack)).setPc (s.pc + 2))
    refine ⟨t, ?_, ?_⟩
    · rw [hstack]
      simp
    · rw [List.map_cons, List.cons_append, execAll_cons (exec_push_of_resolve rfl), hrun]

/-- Popping into one register, once more than `k` times, leaves entry `k` of the stack in it. -/
theorem execAll_pops (r : Reg) (k : Nat) (s : State) (h : k < s.stack.length) :
    ∃ t, execAll (List.replicate (k + 1) (.pop (.register r))) s = .next t ∧ some (t.reg r) = s.stack[k]? ∧
      t.stack = s.stack.drop (k + 1) := by
  induction k generalizing s with
  | zero =>
    obtain ⟨v, st, hs⟩ := List.exists_cons_of_length_pos h
    refine ⟨_, execAll_cons (exec_pop_cons r hs), ?_, ?_⟩ <;> simp [hs]
  | succ k ih =>
    obtain ⟨v, st, hs⟩ := List.exists_cons_of_length_pos (Nat.zero_lt_of_lt h)
    obtain ⟨t, hrun, hreg, hstack⟩ := ih (((s.setStack st).setReg r v).advance 2)
      (by simpa [hs] using h)
    refine ⟨t, ?_, ?_, ?_⟩
    · rw [List.replicate_succ, execAll_cons (exec_pop_cons r hs)]
      exact hrun
    · simpa [hs] using hreg
    · simpa [hs] using hstack

/-- Settles O30: the pushes leave the values reversed on the earlier stack, and the pops take them from there. -/
theorem stackIsLastInFirstOut : Obligations.StackIsLastInFirstOut := by
  intro vs s k r hk
  obtain ⟨u, hu, hpush⟩ := execAll_pushes vs (List.replicate (k + 1) (.pop (.register r))) s
  have hlen : k < vs.reverse.length := by simpa using hk
  obtain ⟨t, hpop, hreg, hstack⟩ := execAll_pops r k u (by rw [hu, List.length_append]; omega)
  refine ⟨t, hpush.trans hpop, ?_, ?_⟩
  · rw [hreg, hu, List.getElem?_append_left hlen]
  · rw [hstack, hu, List.drop_append_of_le_length hlen]

/-! ### in (R121 to R123) -/

section
variable (d : Reg) {later : List ReadAnswer}

theorem exec_inp_nil (h : s.input = []) : exec (.inp (.register d)) s = .next s := by
  simp [exec, execInp, withDst, regidx, readChar, h]

theorem exec_inp_blocked (h : s.input = .blocked :: later) :
    exec (.inp (.register d)) s = .next (s.setInput later) := by
  simp [exec, execInp, withDst, regidx, readChar, h]

theorem exec_inp_byte {x : Byte} (h : s.input = .byte x :: later) :
    exec (.inp (.register d)) s = writeAndAdvance d (x.setWidth 15) 2 (s.setInput later) := by
  simp [exec, execInp, withDst, regidx, readChar, h]

theorem exec_inp_eof_fault (h : s.input = .eof :: later) (hp : s.config.eofPolicy = .fault) :
    exec (.inp (.register d)) s = raise .inputExhausted 0 s := by
  simp [exec, execInp, withDst, regidx, readChar, h, hp]

theorem exec_inp_eof_halt (h : s.input = .eof :: later) (hp : s.config.eofPolicy = .halt) :
    exec (.inp (.register d)) s = halt s := by
  simp [exec, execInp, withDst, regidx, readChar, h, hp]

end

/-- A byte is a Cell: nothing is lost in widening it. -/
theorem byte_setWidth_toNat (x : Byte) : (x.setWidth 15).toNat = x.toNat :=
  BitVec.toNat_setWidth_of_le (by decide)

/-- Settles O32: the destination is checked before the source is asked, and a byte answer is written zero-extended. -/
theorem inReadsOneByte : Obligations.InReadsOneByte := by
  intro A rest s
  refine ⟨decode_cons 20 _ (f := .f1 .inp) rfl, fun hA => ?_, fun d x later hd hin => ?_⟩
  · have hbad : exec (.inp (.ofWord A)) s = raise .invalidOperand A s := withDst_otherWord s _ hA
    rw [hbad]
    exact raise_raises _ _ s
  · rw [Operand.ofWord_register hd, exec_inp_byte d hin, ← byte_setWidth_toNat]
    exact writeAndAdvance_writes d (x.setWidth 15) 2 (s.setInput later)

/-- Settles O33: with nothing to read the state stays, but for a Blocked answer taken off. -/
theorem inBlockedChangesNothing : Obligations.InBlockedChangesNothing :=
  fun d _ => ⟨exec_inp_nil d, fun _ => exec_inp_blocked d⟩

/-- Settles O34: at end of input the policy decides between the fault and the normal end. -/
theorem inAtEndOfInputFaultsOrHalts : Obligations.InAtEndOfInputFaultsOrHalts := by
  intro d later s hin
  refine ⟨fun hp => ?_, fun hp => ?_⟩
  · rw [exec_inp_eof_fault d hin hp]
    exact raise_raises _ _ s
  · rw [exec_inp_eof_halt d hin hp]
    exact halt_haltsRun s

end Sys2Proof.Machine
end

section
/-! What an instruction can do, said once for all 22: whether its operands are valid for their roles, then the one next
state its meaning answers, as one of few kinds of effect. The frames and the causes of the faults read it off. -/

namespace Sys2Proof

/-! ### Operands valid for their roles (R64, R65, R132) -/

theorem Role.accepts_dst {o : Operand} : Role.dst.accepts o = true ↔ ∃ d, o = .register d := by
  cases o <;> simp [Role.accepts]

theorem Instr.wellFormed_iff (i : Instr) : i.wellFormed = true ↔ ∀ p ∈ i.operands, p.1.accepts p.2 = true :=
  List.all_eq_true

theorem Instr.firstInvalid_eq_none_iff (i : Instr) : i.firstInvalid = none ↔ i.wellFormed = true := by
  simp [Instr.firstInvalid, Instr.wellFormed_iff]

end Sys2Proof

namespace Sys2Proof.Machine

theorem accepts_value_iff {o : Operand} (s : State) :
    Role.value.accepts o = true ↔ ∃ v, resolve s o = .ok v := by
  cases o <;> simp [Role.accepts, resolve]

section
variable {i : Instr} {a b c : Operand} (s : State)

theorem wellFormed_value (hi : i.operands = [(.value, a)]) (h : i.wellFormed = true) : ∃ x, resolve s a = .ok x := by
  simpa [Instr.wellFormed_iff, hi, accepts_value_iff s] using h

theorem wellFormed_value_value (hi : i.operands = [(.value, a), (.value, b)]) (h : i.wellFormed = true) :
    (∃ x, resolve s a = .ok x) ∧ ∃ y, resolve s b = .ok y := by
  simpa [Instr.wellFormed_iff, hi, accepts_value_iff s] using h

theorem wellFormed_dst (hi : i.operands = [(.dst, a)]) (h : i.wellFormed = true) : ∃ d, a = .register d := by
  simpa [Instr.wellFormed_iff, hi, Role.accepts_dst] using h

theorem wellFormed_dst_value (hi : i.operands = [(.dst, a), (.value, b)]) (h : i.wellFormed = true) :
    (∃ d, a = .register d) ∧ ∃ x, resolve s b = .ok x := by
  simpa [Instr.wellFormed_iff, hi, Role.accepts_dst, accepts_value_iff s] using h

theorem wellFormed_dst_value_value (hi : i.operands = [(.dst, a), (.value, b), (.value, c)])
    (h : i.wellFormed = true) : (∃ d, a = .register d) ∧ (∃ x, resolve s b = .ok x) ∧ ∃ y, resolve s c = .ok y := by
  simpa [Instr.wellFormed_iff, hi, Role.accepts_dst, accepts_value_iff s] using h

end

/-! ### The first invalid operand is raised (R132) -/

section
variable {a : Operand} (s : State)

theorem withDst_refused (k : Reg → Result) (h : Role.dst.accepts a = false) :
    withDst a s k = raise .invalidOperand a.word s := by
  cases a with
  | literal | invalid => rfl
  | register => cases h

theorem withValue_refused (k : Cell → Result) (h : Role.value.accepts a = false) :
    withValue a s k = raise .invalidOperand a.word s := by
  cases a with
  | literal | register => cases h
  | invalid => rfl

/-- A destination operand in front of what the rest of the instruction does. -/
theorem withDst_firstInvalid {ops : List (Role × Operand)} {k : Reg → Result} {o : Operand}
    (h : (((Role.dst, a) :: ops).find? fun p => !p.1.accepts p.2).map Prod.snd = some o)
    (hk : (ops.find? fun p => !p.1.accepts p.2).map Prod.snd = some o → ∀ d, k d = raise .invalidOperand o.word s) :
    withDst a s k = raise .invalidOperand o.word s := by
  cases ha : Role.dst.accepts a with
  | false =>
    simp only [List.find?_cons, ha, Bool.not_false, Option.map_some, Option.some.injEq] at h
    exact h ▸ withDst_refused s k ha
  | true =>
    obtain ⟨d, rfl⟩ := Role.accepts_dst.1 ha
    simp only [List.find?_cons, ha, Bool.not_true] at h
    exact hk h d

/-- A value operand in front of what the rest of the instruction does. -/
theorem withValue_firstInvalid {ops : List (Role × Operand)} {k : Cell → Result} {o : Operand}
    (h : (((Role.value, a) :: ops).find? fun p => !p.1.accepts p.2).map Prod.snd = some o)
    (hk : (ops.find? fun p => !p.1.accepts p.2).map Prod.snd = some o → ∀ v, k v = raise .invalidOperand o.word s) :
    withValue a s k = raise .invalidOperand o.word s := by
  cases ha : Role.value.accepts a with
  | false =>
    simp only [List.find?_cons, ha, Bool.not_false, Option.map_some, Option.some.injEq] at h
    exact h ▸ withValue_refused s k ha
  | true =>
    obtain ⟨v, hv⟩ := (accepts_value_iff s).1 ha
    simp only [List.find?_cons, ha, Bool.not_true] at h
    rw [withValue_resolved k hv]
    exact hk h v

theorem exec_of_firstInvalid {i : Instr} {o : Operand} (h : i.firstInvalid = some o) :
    exec i s = raise .invalidOperand o.word s := by
  cases i with
  | halt | ret | noop => cases h
  | push a | jmp a | call a | out a => exact withValue_firstInvalid s h nofun
  | pop a | inp a => exact withDst_firstInvalid s h nofun
  | set a b | not a b | rmem a b =>
    exact withDst_firstInvalid s h fun h _ => withValue_firstInvalid s h nofun
  | jt a b | jf a b | wmem a b =>
    exact withValue_firstInvalid s h fun h _ => withValue_firstInvalid s h nofun
  | eq a b c | gt a b c | add a b c | mult a b c | mod a b c | and a b c | or a b c =>
    exact withDst_firstInvalid s h fun h _ => withValue_firstInvalid s h fun h _ => withValue_firstInvalid s h nofun

end

/-! ### The effects -/

/-- Why an instruction takes a fault of its own (60_exceptions.md section 2), with the kind and the word recorded. -/
inductive FaultCause (s : State) : Instr → FaultKind → Word → Prop
  | operand {i : Instr} {o : Operand} (h : i.firstInvalid = some o) : FaultCause s i .invalidOperand o.word
  | emptyStack {d : Reg} (h : s.stack = []) : FaultCause s (.pop (.register d)) .stackUnderflow 0
  | zeroDivisor {d : Reg} {b c : Operand} {x : Cell} (hx : resolve s b = .ok x) (hy : resolve s c = .ok 0) :
      FaultCause s (.mod (.register d) b c) .modByZero 0
  | returnAddress {a : Operand} (h : 32768 ≤ s.pc.toNat + 2) : FaultCause s (.call a) .addressOutOfRange 0
  | wideWord {d : Reg} {b : Operand} {ea : Cell} (hea : resolve s b = .ok ea)
      (hw : 32768 ≤ (Memory.read s.mem ea.toNat).toNat) (hp : s.config.rmemWide = .fault) :
      FaultCause s (.rmem (.register d) b) .valueOutOfRange (Memory.read s.mem ea.toNat)
  | endOfInput {d : Reg} {later : List ReadAnswer} (h : s.input = .eof :: later) (hp : s.config.eofPolicy = .fault) :
      FaultCause s (.inp (.register d)) .inputExhausted 0

/-- Why an instruction ends the run normally (R145). -/
inductive EndCause (s : State) : Instr → Prop
  | halt : EndCause s .halt
  | emptyStack (h : s.stack = []) : EndCause s .ret
  | endOfInput {d : Reg} {later : List ReadAnswer} (h : s.input = .eof :: later) : EndCause s (.inp (.register d))

/-- The next state an instruction makes of `s`. -/
inductive Effect (s : State) : Instr → State → Prop
  | fault {i : Instr} {k : FaultKind} {info : Word} (h : FaultCause s i k info) : Effect s i (s.recordFault k info)
  | ends {i : Instr} (h : EndCause s i) : Effect s i (s.setStatus .halted)
  | noop : Effect s .noop (s.setPc (s.pc + 1))
  /-- The twelve register instructions of formats F2 and F3. -/
  | write {i : Instr} {d : Reg} (v : Cell) (h : (Role.dst, Operand.register d) ∈ i.operands) :
      Effect s i ((s.setReg d v).setPc (s.pc + BitVec.ofNat 16 i.length))
  | push {a : Operand} (v : Cell) : Effect s (.push a) ((s.setStack (v :: s.stack)).setPc (s.pc + 2))
  | pop {d : Reg} {v : Cell} {st : List Cell} (h : s.stack = v :: st) :
      Effect s (.pop (.register d)) (((s.setStack st).setReg d v).setPc (s.pc + 2))
  | jmp {a : Operand} {g : Cell} (hg : resolve s a = .ok g) : Effect s (.jmp a) (s.setPc g.toWord)
  | jt {a b : Operand} {x g : Cell} (hx : resolve s a = .ok x) (hg : resolve s b = .ok g) :
      Effect s (.jt a b) (s.setPc (if x = 0 then s.pc + 3 else g.toWord))
  | jf {a b : Operand} {x g : Cell} (hx : resolve s a = .ok x) (hg : resolve s b = .ok g) :
      Effect s (.jf a b) (s.setPc (if x = 0 then g.toWord else s.pc + 3))
  | store {a b : Operand} {ea : Cell} (v : Cell) (hea : resolve s a = .ok ea) :
      Effect s (.wmem a b) ((s.setMem (Memory.write s.mem ea.toNat v.toWord)).setPc (s.pc + 3))
  | call {a : Operand} {g : Cell} (r : Cell) (hg : resolve s a = .ok g) :
      Effect s (.call a) ((s.setStack (r :: s.stack)).setPc g.toWord)
  | ret {g : Cell} {st : List Cell} (h : s.stack = g :: st) : Effect s .ret ((s.setStack st).setPc g.toWord)
  | out {a : Operand} (x : Byte) : Effect s (.out a) ((s.writeChar x).setPc (s.pc + 2))
  | read {d : Reg} {x : Byte} {later : List ReadAnswer} (h : s.input = .byte x :: later) :
      Effect s (.inp (.register d)) (((s.setInput later).setReg d (x.setWidth 15)).setPc (s.pc + 2))
  | held {d : Reg} (h : s.input = []) : Effect s (.inp (.register d)) s
  | blocked {d : Reg} {later : List ReadAnswer} (h : s.input = .blocked :: later) :
      Effect s (.inp (.register d)) (s.setInput later)

/-- The outcome is the next state of an effect. -/
def Gives (s : State) (i : Instr) (o : Result) : Prop := ∃ t, o = .next t ∧ Effect s i t

section
variable {s : State} {b c : Operand} {x y : Cell} (d : Reg)

theorem Gives.write {i : Instr} {n : Nat} (v : Cell) (hn : i.length = n)
    (hd : (Role.dst, Operand.register d) ∈ i.operands) : Gives s i (writeAndAdvance d v n s) :=
  ⟨_, rfl, hn ▸ .write v hd⟩

theorem gives_binaryOp {i : Instr} (f : Cell → Cell → Cell)
    (hi : i.operands = [(.dst, .register d), (.value, b), (.value, c)]) (hx : resolve s b = .ok x)
    (hy : resolve s c = .ok y) : Gives s i (binaryOp f (.register d) b c s) := by
  have hexec : binaryOp f (.register d) b c s = writeAndAdvance d (f x y) 4 s := withValue_withValue_resolved _ hx hy
  rw [hexec]
  exact .write d _ (by rw [Instr.length, hi]; rfl) (by simp [hi])

theorem exec_mod_gives (hx : resolve s b = .ok x) (hy : resolve s c = .ok y) :
    Gives s (.mod (.register d) b c) (exec (.mod (.register d) b c) s) := by
  have hexec : exec (.mod (.register d) b c) s =
      if y.toNat = 0 then raise .modByZero 0 s else writeAndAdvance d (reduceToCell (x.toNat % y.toNat)) 4 s :=
    withValue_withValue_resolved _ hx hy
  rw [hexec]
  split
  · next hzero =>
    rw [(cell_toNat_eq_zero_iff y).1 hzero] at hy
    exact ⟨_, rfl, .fault (.zeroDivisor hx hy)⟩
  · exact .write d _ rfl (by simp [Instr.operands])

theorem exec_rmem_gives (hx : resolve s b = .ok x) :
    Gives s (.rmem (.register d) b) (exec (.rmem (.register d) b) s) := by
  have hexec : exec (.rmem (.register d) b) s = rmemWord d (Memory.read s.mem x.toNat) s := by
    rw [exec_rmem]
    exact withValue_resolved _ hx
  rw [hexec]
  rcases Nat.lt_or_ge (Memory.read s.mem x.toNat).toNat 32768 with hw | hw
  · rw [rmemWord_narrow d s hw]
    exact .write d _ rfl (by simp [Instr.operands])
  · cases hp : s.config.rmemWide with
    | fault =>
      rw [rmemWord_fault d hw hp]
      exact ⟨_, rfl, .fault (.wideWord hx hw hp)⟩
    | reduce =>
      rw [rmemWord_reduce d hw hp]
      exact .write d _ rfl (by simp [Instr.operands])

theorem exec_pop_gives (s : State) : Gives s (.pop (.register d)) (exec (.pop (.register d)) s) := by
  cases hs : s.stack with
  | nil =>
    rw [exec_pop_nil d hs]
    exact ⟨_, rfl, .fault (.emptyStack hs)⟩
  | cons v st =>
    rw [exec_pop_cons d hs]
    exact ⟨_, rfl, .pop hs⟩

theorem exec_ret_gives (s : State) : Gives s .ret (exec .ret s) := by
  cases hs : s.stack with
  | nil =>
    rw [exec_ret_nil hs]
    exact ⟨_, rfl, .ends (.emptyStack hs)⟩
  | cons g st =>
    rw [exec_ret_cons hs]
    exact ⟨_, rfl, .ret hs⟩

theorem exec_call_gives {a : Operand} {g : Cell} (hg : resolve s a = .ok g) :
    Gives s (.call a) (exec (.call a) s) := by
  rcases Nat.lt_or_ge (s.pc.toNat + 2) 32768 with hp | hp
  · rw [exec_call_of_resolve hg hp]
    exact ⟨_, rfl, .call _ hg⟩
  · rw [exec_call_outside hg hp]
    exact ⟨_, rfl, .fault (.returnAddress hp)⟩

theorem exec_inp_gives (s : State) : Gives s (.inp (.register d)) (exec (.inp (.register d)) s) := by
  match hin : s.input with
  | [] =>
    rw [exec_inp_nil d hin]
    exact ⟨_, rfl, .held hin⟩
  | .blocked :: _ =>
    rw [exec_inp_blocked d hin]
    exact ⟨_, rfl, .blocked hin⟩
  | .byte _ :: _ =>
    rw [exec_inp_byte d hin]
    exact ⟨_, rfl, .read hin⟩
  | .eof :: _ =>
    cases hp : s.config.eofPolicy with
    | fault =>
      rw [exec_inp_eof_fault d hin hp]
      exact ⟨_, rfl, .fault (.endOfInput hin hp)⟩
    | halt =>
      rw [exec_inp_eof_halt d hin hp]
      exact ⟨_, rfl, .ends (.endOfInput hin)⟩

end

/-! ### Every instruction gives an effect -/

theorem exec_gives_of_wellFormed {i : Instr} (s : State) (h : i.wellFormed = true) : Gives s i (exec i s) := by
  cases i with
  | halt => exact ⟨_, rfl, .ends .halt⟩
  | noop => exact ⟨_, rfl, .noop⟩
  | ret => exact exec_ret_gives s
  | push a =>
    obtain ⟨v, hv⟩ := wellFormed_value s rfl h
    exact ⟨_, exec_push_of_resolve hv, .push v⟩
  | jmp a =>
    obtain ⟨g, hg⟩ := wellFormed_value s rfl h
    exact ⟨_, exec_jmp_of_resolve hg, .jmp hg⟩
  | call a =>
    obtain ⟨g, hg⟩ := wellFormed_value s rfl h
    exact exec_call_gives hg
  | out a =>
    obtain ⟨v, hv⟩ := wellFormed_value s rfl h
    exact ⟨_, exec_out_of_resolve hv, .out _⟩
  | pop a =>
    obtain ⟨d, rfl⟩ := wellFormed_dst rfl h
    exact exec_pop_gives d s
  | inp a =>
    obtain ⟨d, rfl⟩ := wellFormed_dst rfl h
    exact exec_inp_gives d s
  | jt a b =>
    obtain ⟨⟨x, hx⟩, g, hg⟩ := wellFormed_value_value s rfl h
    exact ⟨_, (exec_jt a b s).trans (withValue_withValue_resolved _ hx hg), .jt hx hg⟩
  | jf a b =>
    obtain ⟨⟨x, hx⟩, g, hg⟩ := wellFormed_value_value s rfl h
    exact ⟨_, (exec_jf a b s).trans (withValue_withValue_resolved _ hx hg), .jf hx hg⟩
  | wmem a b =>
    obtain ⟨⟨ea, hea⟩, v, hv⟩ := wellFormed_value_value s rfl h
    exact ⟨_, exec_wmem_of_resolve hea hv, .store v hea⟩
  | set a b =>
    obtain ⟨⟨d, rfl⟩, v, hv⟩ := wellFormed_dst_value s rfl h
    have hexec : exec (.set (.register d) b) s = writeAndAdvance d v 3 s := withValue_resolved _ hv
    exact hexec ▸ .write d v rfl (by simp [Instr.operands])
  | not a b =>
    obtain ⟨⟨d, rfl⟩, x, hx⟩ := wellFormed_dst_value s rfl h
    have hexec : exec (.not (.register d) b) s = writeAndAdvance d (BitVec.ofNat 15 (32767 - x.toNat)) 3 s :=
      withValue_resolved _ hx
    exact hexec ▸ .write d _ rfl (by simp [Instr.operands])
  | rmem a b =>
    obtain ⟨⟨d, rfl⟩, ea, hea⟩ := wellFormed_dst_value s rfl h
    exact exec_rmem_gives d hea
  | mod a b c =>
    obtain ⟨⟨d, rfl⟩, ⟨x, hx⟩, y, hy⟩ := wellFormed_dst_value_value s rfl h
    exact exec_mod_gives d hx hy
  | eq a b c | gt a b c | add a b c | mult a b c | and a b c | or a b c =>
    obtain ⟨⟨d, rfl⟩, ⟨x, hx⟩, y, hy⟩ := wellFormed_dst_value_value s rfl h
    exact gives_binaryOp d _ rfl hx hy

/-- Every instruction in every state answers a next state, by one of the effects. -/
theorem exec_gives (i : Instr) (s : State) : Gives s i (exec i s) := by
  cases h : i.firstInvalid with
  | none => exact exec_gives_of_wellFormed s ((Instr.firstInvalid_eq_none_iff i).1 h)
  | some o => exact ⟨_, exec_of_firstInvalid s h, .fault (.operand h)⟩

theorem effect_of_exec {i : Instr} {s t : State} (h : exec i s = .next t) : Effect s i t := by
  obtain ⟨u, hu, heffect⟩ := exec_gives i s
  obtain rfl := Host.Outcome.next.inj (h.symm.trans hu)
  exact heffect

end Sys2Proof.Machine
end

section
/-! The frames of every instruction, field by field, and the cause of each kind of fault (10_state.md, 60_exceptions.md
section 2): read off the effects. -/

namespace Sys2Proof.Machine

variable {s t : State} {i : Instr}

/-! ### Frames -/

theorem Effect.input_cases (h : Effect s i t) :
    t.input = s.input ∨ (∃ a, i = .inp a) ∧ ((∃ x, s.input = .byte x :: t.input) ∨ s.input = .blocked :: t.input) := by
  cases h with
  | read h => exact .inr ⟨⟨_, rfl⟩, .inl ⟨_, h⟩⟩
  | blocked h => exact .inr ⟨⟨_, rfl⟩, .inr h⟩
  | _ => exact .inl rfl

/-- Settles O36: among the effects only a byte read and a Blocked answer touch the source. -/
theorem onlyInAsksTheSource : Obligations.OnlyInAsksTheSource := by
  intro i s t h
  rcases (effect_of_exec h).input_cases with hsame | ⟨⟨a, hinp⟩, htaken⟩
  · exact ⟨fun _ => hsame, .inl hsame⟩
  · exact ⟨fun hi => absurd hinp (hi a), .inr htaken⟩

theorem Effect.reg_eq (h : Effect s i t) {r : Reg} (hr : (Role.dst, Operand.register r) ∉ i.operands) :
    t.reg r = s.reg r := by
  cases h with
  | write v hd => exact setReg_reg_other s v fun he => hr (he ▸ hd)
  | pop => exact setReg_reg_other _ _ fun he => hr (by simp [Instr.operands, he])
  | read => exact setReg_reg_other _ _ fun he => hr (by simp [Instr.operands, he])
  | _ => rfl

/-- Settles O37: the effects that write a register write the destination operand. -/
theorem registersChangeOnlyAsDestination : Obligations.RegistersChangeOnlyAsDestination :=
  fun _ _ _ _ h hr => (effect_of_exec h).reg_eq hr

/-- Memory is left alone, or one word is stored at the address of a `wmem`. -/
theorem Effect.mem_cases (h : Effect s i t) :
    t.mem = s.mem ∨ ∃ a b ea w, i = .wmem a b ∧ resolve s a = .ok ea ∧ t.mem = Memory.write s.mem ea.toNat w := by
  cases h with
  | store v hea => exact .inr ⟨_, _, _, _, rfl, hea, rfl⟩
  | _ => exact .inl rfl

/-- Settles O38: the only effect on memory is one store, which a read elsewhere does not see. -/
theorem memoryChangesOnlyWhereWmemStores : Obligations.MemoryChangesOnlyWhereWmemStores := by
  intro i s t addr hwf h hne
  rcases (effect_of_exec h).mem_cases with hsame | ⟨a, b, ea, w, hi, hea, hstore⟩
  · rw [hsame]
  · rw [hstore, Memory.read_write_other hwf w (hne a b ea hi hea)]

/-- Settles O39: the effects that touch the stack are those of its four instructions. -/
theorem stackChangesOnlyByItsInstructions : Obligations.StackChangesOnlyByItsInstructions := by
  intro i s t h
  cases effect_of_exec h with
  | push v => exact .inr (.inl ⟨.inl ⟨_, rfl⟩, v, rfl⟩)
  | call r => exact .inr (.inl ⟨.inr ⟨_, rfl⟩, r, rfl⟩)
  | pop hs => exact .inr (.inr ⟨.inl ⟨_, rfl⟩, _, hs⟩)
  | ret hs => exact .inr (.inr ⟨.inr rfl, _, hs⟩)
  | _ => exact .inl rfl

theorem Effect.sameHostSide (h : Effect s i t) : SameHostSide s t := by
  cases h <;> exact ⟨rfl, rfl, rfl⟩

theorem FaultCause.kind_ne_none {k : FaultKind} {info : Word} (h : FaultCause s i k info) : k ≠ .none := by
  cases h <;> decide

/-- The status registers stay, or the run ends normally with the pc kept, or a fault is recorded. -/
theorem Effect.status_cases (h : Effect s i t) :
    SameStatus s t ∨ (t = s.setStatus .halted ∧ EndCause s i) ∨
      ∃ k info, t = s.recordFault k info ∧ FaultCause s i k info := by
  cases h with
  | fault h => exact .inr (.inr ⟨_, _, rfl, h⟩)
  | ends h => exact .inr (.inl ⟨rfl, h⟩)
  | _ => exact .inl ⟨rfl, rfl, rfl, rfl⟩

/-- Settles O40: no effect touches the host's side, and the status registers are written at a fault or an end. -/
theorem statusIsWrittenOnlyAtTheEnd : Obligations.StatusIsWrittenOnlyAtTheEnd := by
  intro i s t h
  have heffect := effect_of_exec h
  refine ⟨heffect.sameHostSide, ?_⟩
  rcases heffect.status_cases with hsame | ⟨rfl, -⟩ | ⟨k, info, rfl, hcause⟩
  · exact .inl hsame
  · exact .inr (.inl ⟨rfl, rfl, rfl, rfl⟩)
  · exact .inr (.inr ⟨rfl, hcause.kind_ne_none, rfl⟩)

/-! ### The pc -/

theorem Effect.pc_eq_of_status_ne (h : Effect s i t) (hne : t.status ≠ s.status) : t.pc = s.pc := by
  rcases h.status_cases with ⟨hsame, -⟩ | ⟨rfl, -⟩ | ⟨k, info, rfl, -⟩
  exacts [absurd hsame hne, rfl, rfl]

/-- Settles O41: a step that leaves Running is a fault or an end; every other effect moves the pc as the table says. -/
theorem pcAdvancesByTheTable : Obligations.PcAdvancesByTheTable := by
  intro i s t hrun h
  have heffect := effect_of_exec h
  refine ⟨fun hne => heffect.pc_eq_of_status_ne (hrun.symm ▸ hne), fun hstay => ?_⟩
  cases heffect with
  | fault => cases hstay
  | ends => cases hstay
  | write v hd =>
    cases i with
    | halt | ret | noop | push | jmp | call | out | jt | jf | wmem => exact absurd hd (by simp [Instr.operands])
    | inp => exact fun _ => rfl
    | _ => rfl
  | jmp hg => exact ⟨_, hg, rfl⟩
  | call r hg => exact ⟨_, hg, rfl⟩
  | jt hx hg => exact ⟨_, _, hx, hg, rfl⟩
  | jf hx hg => exact ⟨_, _, hx, hg, rfl⟩
  | ret hs => exact ⟨_, _, hs, rfl⟩
  | read => exact fun _ => rfl
  | held hin =>
    rintro ⟨x, later, hbyte⟩
    rw [hin] at hbyte
    cases hbyte
  | blocked hin =>
    rintro ⟨x, later, hbyte⟩
    rw [hin] at hbyte
    cases hbyte
  | _ => rfl

/-! ### The causes of the faults -/

/-- A fault taken is one of the instruction's own, and leaves all but the status registers. -/
theorem Effect.faultCause (h : Effect s i t) (hs : s.status = .running) (ht : t.status = .faulted) :
    FaultCause s i t.faultKind t.faultInfo ∧ t = s.recordFault t.faultKind t.faultInfo := by
  rcases h.status_cases with ⟨hsame, -⟩ | ⟨rfl, -⟩ | ⟨k, info, rfl, hcause⟩
  · rw [hsame, hs] at ht
    cases ht
  · cases ht
  · exact ⟨hcause, rfl⟩

/-- The cause of a fault of a given kind. -/
theorem faultCause_of_exec {k : FaultKind} (h : exec i s = .next t) (hs : s.status = .running)
    (ht : t.status = .faulted) (hk : t.faultKind = k) : FaultCause s i k t.faultInfo :=
  hk ▸ ((effect_of_exec h).faultCause hs ht).1

/-- Settles O42: the first invalid operand is raised, and nothing else is the cause of this kind. -/
theorem invalidOperandReportsTheFirst : Obligations.InvalidOperandReportsTheFirst := by
  intro i s hs
  refine ⟨fun o ho => ?_, fun hwf t h ht hk => ?_⟩
  · rw [exec_of_firstInvalid s ho]
    exact raise_raises _ _ s
  · have hcause := faultCause_of_exec h hs ht hk
    generalize t.faultInfo = info at hcause
    cases hcause with
    | operand ho => simp [(Instr.firstInvalid_eq_none_iff i).2 hwf] at ho

/-- Settles O44: pop raises it on the empty stack, ret halts there, and no other cause gives this kind. -/
theorem stackUnderflowOnlyByPop : Obligations.StackUnderflowOnlyByPop := by
  intro i s hs
  refine ⟨?_, ?_, fun t h ht hk => ?_⟩
  · rintro d rfl hstack
    rw [exec_pop_nil d hstack]
    exact raise_raises _ _ s
  · rintro rfl hstack
    exact ⟨_, exec_ret_nil hstack, rfl⟩
  · have hcause := faultCause_of_exec h hs ht hk
    generalize t.faultInfo = info at hcause
    cases hcause with
    | emptyStack hstack => exact ⟨hstack, _, rfl⟩

theorem exec_mod_zero {d : Reg} {b c : Operand} {x : Cell} (hx : resolve s b = .ok x) (hy : resolve s c = .ok 0) :
    exec (.mod (.register d) b c) s = raise .modByZero 0 s :=
  withValue_withValue_resolved _ hx hy

/-- Settles O45: mod raises it on the divisor 0, and no other cause gives this kind. -/
theorem modByZeroOnlyByMod : Obligations.ModByZeroOnlyByMod := by
  intro i s hs
  refine ⟨?_, fun t h ht hk => ?_⟩
  · rintro d b c x rfl hx hy
    rw [exec_mod_zero hx hy]
    exact raise_raises _ _ s
  · have hcause := faultCause_of_exec h hs ht hk
    generalize t.faultInfo = info at hcause
    cases hcause with
    | zeroDivisor hx hy => exact ⟨_, _, _, _, rfl, hx, hy⟩

/-- Settles O46: each of the three kinds has one cause. -/
theorem decidedFaultsHaveOneCause : Obligations.DecidedFaultsHaveOneCause := by
  intro i s t hs h ht
  refine ⟨fun hk => ?_, fun hk => ?_, fun hk => ?_⟩
  all_goals
    have hcause := faultCause_of_exec h hs ht hk
    generalize t.faultInfo = info at hcause ⊢
    cases hcause
  case returnAddress hp => exact ⟨rfl, hp, _, rfl⟩
  case wideWord hea hw hp => exact ⟨hp, hw, _, _, _, rfl, hea, rfl⟩
  case endOfInput hin hp => exact ⟨rfl, hp, _, _, rfl, hin⟩

end Sys2Proof.Machine
end

section
/-! The turns of a step (30_encoding.md R71, 60_exceptions.md sections 3 and 4, 70_reset_and_hazards.md section 2): what
the core's turn answers in each case, and from it the statements about fetch, faults, cancel and the run status. -/

namespace Sys2Proof.Machine

variable {s t : State}

/-! ### The outcome of the core's turn -/

/-- The outcome of a turn. -/
def Turn.outcome : Turn → Result
  | .done o => o
  | .run i s => exec i s

theorem step_eq_outcome (s : State) : step s = (nextTurn s).outcome := by
  unfold step
  cases nextTurn s <;> rfl

theorem step_of_no_request (h : s.requests = []) : step s = (coreTurn s).outcome := by
  rw [step_eq_outcome, nextTurn, h]

theorem step_of_yield {rs : List HostRequest} (h : s.requests = .yield :: rs) :
    step s = (coreTurn (s.setRequests rs)).outcome := by
  rw [step_eq_outcome, nextTurn, h]

theorem coreTurn_of_not_running (h : s.status ≠ .running) : coreTurn s = .done (.next s) := by
  unfold coreTurn
  cases hs : s.status with
  | running => exact absurd hs h
  | _ => rfl

theorem coreTurn_of_cancel (h : s.status = .running) (hc : s.cancelRequested = true) :
    coreTurn s = .done (.next (s.setStatus .cancelled)) := by
  simp [coreTurn, h, hc]

theorem coreTurn_of_decode (h : s.status = .running) (hc : s.cancelRequested = false) {i : Instr} {rest : List Word}
    (hd : decode (fetchWords s) = .ok (i, rest)) : coreTurn s = .run i s := by
  simp [coreTurn, h, hc, hd]

theorem coreTurn_of_error (h : s.status = .running) (hc : s.cancelRequested = false) {e : DecodeError}
    (hd : decode (fetchWords s) = .error e) : coreTurn s = .done (onDecodeError e s) := by
  simp [coreTurn, h, hc, hd]

theorem step_of_decode (h : CoreRuns s) {i : Instr} {rest : List Word} (hd : decode (fetchWords s) = .ok (i, rest)) :
    step s = exec i s := by
  rw [step_eq_outcome, nextTurn_run h hd, Turn.outcome]

theorem step_of_error (h : CoreRuns s) {e : DecodeError} (hd : decode (fetchWords s) = .error e) :
    step s = onDecodeError e s := by
  rw [step_eq_outcome, nextTurn_error h hd, Turn.outcome]

/-- Settles O49: with nothing pending or with a yield first, the turn is the decoded instruction's. -/
theorem stepRunsTheDecodedInstruction : Obligations.StepRunsTheDecodedInstruction := by
  intro s i rest hs hc hd
  refine ⟨fun hr => step_of_decode ⟨hs, hc, hr⟩ hd, fun rs hr => ?_⟩
  rw [step_of_yield hr, coreTurn_of_decode (s := s.setRequests rs) hs hc hd]
  rfl

/-! ### Fetch (R71 steps 1 to 5) -/

theorem fetchWords_nil (h : 32768 ≤ s.pc.toNat) : fetchWords s = [] := by
  rw [← List.length_eq_zero_iff, fetchWords_length]
  omega

/-- Inside memory the first word fetched is the one at the pc. -/
theorem fetchWords_cons (h : s.pc.toNat < 32768) :
    ∃ ws, fetchWords s = Memory.read s.mem s.pc.toNat :: ws ∧ ws.length = min 3 (32767 - s.pc.toNat) := by
  have hlen := fetchWords_length s
  cases hws : fetchWords s with
  | nil =>
    rw [hws, List.length_nil] at hlen
    omega
  | cons w ws =>
    have hget := fetchWords_get s (k := 0) (by decide) h
    rw [hws, List.length_cons] at hlen
    rw [hws, List.getElem?_cons_zero, Option.some.injEq] at hget
    exact ⟨ws, by rw [hget]; rfl, by omega⟩

end Sys2Proof.Machine

namespace Sys2Proof

/-- A row finds its operand words or reports that one is missing (R73). -/
theorem Format.Makes.take_cases {f : Format} {n : Nat} (hf : f.Makes n) (ws : List Word) :
    (ws.length < n ∧ f.take ws = .error .noOperandWord) ∨ (n ≤ ws.length ∧ ∃ i rest, f.take ws = .ok (i, rest)) := by
  cases hf with
  | f0 => exact .inr ⟨Nat.zero_le _, _, _, rfl⟩
  | f1 => match ws with
    | [] => exact .inl ⟨by simp, rfl⟩
    | _ :: _ => exact .inr ⟨by simp, _, _, rfl⟩
  | f2 => match ws with
    | [] | [_] => exact .inl ⟨by simp, rfl⟩
    | _ :: _ :: _ => exact .inr ⟨by simp, _, _, rfl⟩
  | f3 => match ws with
    | [] | [_] | [_, _] => exact .inl ⟨by simp, rfl⟩
    | _ :: _ :: _ :: _ => exact .inr ⟨by simp, _, _, rfl⟩

/-- Every opcode of the table has a row, which takes the operand count of R70. -/
theorem exists_row_makes {n : Nat} (h : n < 22) : ∃ f, opcodeTable[n]? = some f ∧ f.Makes (Machine.operandCount n) :=
  have hrow := List.getElem?_eq_getElem (l := opcodeTable) h
  ⟨_, hrow, opcodeTable_makes hrow⟩

/-- A word is refused by name only when it is the opcode word and no row has it (R68). -/
theorem decode_error_unknownOpcode {op : Word} {ws : List Word} (h : decode ws = .error (.unknownOpcode op)) :
    22 ≤ op.toNat ∧ ∃ us, ws = op :: us := by
  cases ws with
  | nil => cases h
  | cons w us =>
    rcases Nat.lt_or_ge w.toNat 22 with hw | hw
    · obtain ⟨f, hrow, hf⟩ := exists_row_makes hw
      rw [decode_cons w us hrow] at h
      rcases hf.take_cases us with ⟨-, htake⟩ | ⟨-, i, rest, htake⟩ <;> rw [htake] at h <;> cases h
    · rw [decode_unknown w us hw] at h
      cases h
      exact ⟨hw, us, rfl⟩

theorem encode_length_of_decode {ws rest : List Word} {i : Instr} (h : decode ws = .ok (i, rest)) :
    (encode i).length = i.length ∧ ws.length = i.length + rest.length := by
  cases ws with
  | nil => cases h
  | cons op ws =>
    have hlen := (lengthComesFromOpcodeAlone op ws rest i h).2.2
    have hwords := congrArg List.length (encodeOfDecodeIsTheWords _ _ _ h).1
    rw [List.length_append] at hwords
    exact ⟨by omega, hlen⟩

end Sys2Proof

namespace Sys2Proof.Machine

variable {s t : State} {i : Instr} {rest : List Word}

theorem operandCount_le (n : Nat) : operandCount n ≤ 3 := by
  unfold operandCount
  split_ifs <;> omega

/-- An instruction that is fetched lies inside memory. -/
theorem fetched_length (h : decode (fetchWords s) = .ok (i, rest)) : s.pc.toNat + i.length ≤ 32768 := by
  have hfetch := fetchWords_length s
  have hwords := (encode_length_of_decode h).2
  have hpos : 1 ≤ i.length := Nat.le_add_right 1 _
  omega

/-- The opcode at the pc gives the length of the instruction fetched. -/
theorem fetched_operands_length (h : decode (fetchWords s) = .ok (i, rest)) :
    i.operands.length = operandCount (Memory.read s.mem s.pc.toNat).toNat := by
  have hin := fetched_length h
  have hpos : 1 ≤ i.length := Nat.le_add_right 1 _
  obtain ⟨ws, hws, -⟩ := fetchWords_cons (s := s) (by omega)
  have hlen := (lengthComesFromOpcodeAlone _ ws rest i (hws ▸ h)).2.1
  exact Nat.add_left_cancel hlen

theorem fetched_encode (h : decode (fetchWords s) = .ok (i, rest)) {k : Nat} (hk : k < i.length) :
    (encode i)[k]? = some (Memory.read s.mem (s.pc.toNat + k)) := by
  have hin := fetched_length h
  have hfour : i.length ≤ 4 := by
    have hlen := fetchWords_length s
    have hwords := (encode_length_of_decode h).2
    omega
  have hget := fetchWords_get s (Nat.lt_of_lt_of_le hk hfour) (by omega)
  rwa [(encodeOfDecodeIsTheWords _ _ _ h).1,
    List.getElem?_append_left ((encode_length_of_decode h).1 ▸ hk)] at hget

/-- Settles O50: past the end nothing is fetched; else the opcode's row finds its operand words in what is fetched, or
misses one exactly when it lies past the end. -/
theorem fetchFaultsInOrder : Obligations.FetchFaultsInOrder := by
  intro s hs
  refine ⟨fun hpc => ?_, fun hpc hop => ?_⟩
  · rw [step_of_error hs (e := .noOpcodeWord) (by rw [fetchWords_nil hpc]; rfl)]
    exact raise_raises _ _ s
  · obtain ⟨ws, hws, hlen⟩ := fetchWords_cons (Nat.lt_succ_of_le hpc)
    obtain ⟨f, hrow, hf⟩ := exists_row_makes hop
    have hdecode : decode (fetchWords s) = f.take ws := by rw [hws, decode_cons _ ws hrow]
    rcases hf.take_cases ws with ⟨hshort, htake⟩ | ⟨hfits, i, rest, htake⟩
    · refine ⟨fun _ => ?_, fun hin => ?_⟩
      · rw [step_of_error hs (hdecode.trans htake)]
        exact raise_raises _ _ s
      · have hthree := operandCount_le (Memory.read s.mem s.pc.toNat).toNat
        omega
    · have hd := hdecode.trans htake
      refine ⟨fun hout => ?_, fun _ => ⟨i, step_of_decode hs hd, ?_, fun k hk => fetched_encode hd hk⟩⟩
      · omega
      · rw [Instr.length, fetched_operands_length hd]

/-- Settles O43: the word is refused by name, and the mode decides. -/
theorem unknownOpcodeFaultsOrIsSkipped : Obligations.UnknownOpcodeFaultsOrIsSkipped := by
  intro s hs hpc hop
  obtain ⟨ws, hws, -⟩ := fetchWords_cons (Nat.lt_succ_of_le hpc)
  have hstep := step_of_error hs (hws ▸ decode_unknown _ ws hop)
  rw [onDecodeError, unknownOpcode] at hstep
  refine ⟨fun hl => ?_, fun hl => ?_⟩
  · rw [hstep, hl]
    exact raise_raises _ _ s
  · rw [hstep, hl]
    exact ⟨_, rfl, setPc_moves s _⟩

/-! ### A step that faults -/

theorem recordFault_faultEntry (s : State) (k : FaultKind) (info : Word) :
    FaultEntry s (s.recordFault k info) k info := by
  obtain ⟨t, hnext, hentry⟩ := raise_raises k info s
  exact raise_next hnext ▸ hentry

/-- A step of the core that faults is the fault of the instruction fetched, or the fetch found no whole instruction, or
it found a word that is none. -/
theorem step_faulted (hs : CoreRuns s) (h : step s = .next t) (ht : t.status = .faulted) :
    (∃ i rest, decode (fetchWords s) = .ok (i, rest) ∧ FaultCause s i t.faultKind t.faultInfo ∧
      t = s.recordFault t.faultKind t.faultInfo) ∨
    t = s.recordFault .addressOutOfRange 0 ∨
    ∃ op, decode (fetchWords s) = .error (.unknownOpcode op) ∧ s.config.lenient = false ∧
      t = s.recordFault .unknownOpcode op := by
  cases hd : decode (fetchWords s) with
  | ok p =>
    obtain ⟨i, rest⟩ := p
    rw [step_of_decode hs hd] at h
    exact .inl ⟨i, rest, rfl, (effect_of_exec h).faultCause hs.1 ht⟩
  | error e =>
    rw [step_of_error hs hd] at h
    rcases onDecodeError_next h with ⟨-, rfl⟩ | ⟨op, rfl, ⟨hl, rfl⟩ | ⟨-, rfl⟩⟩
    · exact .inr (.inl rfl)
    · exact .inr (.inr ⟨op, rfl, hl, rfl⟩)
    · rw [setPc_status, hs.1] at ht
      cases ht

/-- Settles O48: each of the three ways to fault only records it. -/
theorem faultsArePrecise : Obligations.FaultsArePrecise := by
  intro s t hs h ht
  rcases step_faulted hs h ht with ⟨i, rest, -, hcause, heq⟩ | rfl | ⟨op, -, -, rfl⟩
  · rw [heq]
    exact ⟨_, _, hcause.kind_ne_none, recordFault_faultEntry s _ _⟩
  · exact ⟨.addressOutOfRange, 0, by decide, recordFault_faultEntry s _ _⟩
  · exact ⟨.unknownOpcode, op, by decide, recordFault_faultEntry s _ _⟩

/-- The first invalid operand of the instruction fetched, as words: every word before it is accepted in its role. -/
theorem fetched_firstInvalid (h : decode (fetchWords s) = .ok (i, rest)) {o : Operand} (ho : i.firstInvalid = some o) :
    ∃ k role, 1 ≤ k ∧ k ≤ operandCount (Memory.read s.mem s.pc.toNat).toNat ∧ s.pc.toNat + k ≤ 32767 ∧
      o.word = Memory.read s.mem (s.pc.toNat + k) ∧ i.operands[k - 1]? = some (role, .ofWord o.word) ∧
      ¬ AcceptsWord role o.word ∧
      ∀ j, 1 ≤ j → j < k → ∃ r, i.operands[j - 1]? = some (r, .ofWord (Memory.read s.mem (s.pc.toNat + j))) ∧
        AcceptsWord r (Memory.read s.mem (s.pc.toNat + j)) := by
  obtain ⟨p, hfind, rfl⟩ := Option.map_eq_some_iff.1 ho
  obtain ⟨hbad, n, hn, hp, hbefore⟩ := List.find?_eq_some_iff_getElem.1 hfind
  obtain ⟨hin, role, hop⟩ := fetched_operand h hn
  obtain rfl : p = (role, .ofWord (Memory.read s.mem (s.pc.toNat + (n + 1)))) := by
    rw [List.getElem?_eq_getElem hn, hp] at hop
    exact Option.some.inj hop
  simp only [Operand.word_ofWord]
  refine ⟨n + 1, role, by omega, fetched_operands_length h ▸ hn, by omega, rfl, hop, ?_, fun j hj hjn => ?_⟩
  · rw [← role_accepts_ofWord]
    simpa using hbad
  · obtain ⟨-, r, hr⟩ := fetched_operand h (k := j - 1) (by omega)
    rw [Nat.sub_add_cancel hj] at hr
    refine ⟨r, hr, ?_⟩
    have haccepts := hbefore (j - 1) (by omega)
    rw [List.getElem?_eq_getElem (by omega), Option.some.injEq] at hr
    rw [hr] at haccepts
    rw [← role_accepts_ofWord]
    simpa using haccepts

/-- A word refused by name is the one at the pc, which memory has. -/
theorem fetched_unknownOpcode {op : Word} (h : decode (fetchWords s) = .error (.unknownOpcode op)) :
    s.pc.toNat < 32768 ∧ op = Memory.read s.mem s.pc.toNat ∧ 22 ≤ op.toNat := by
  obtain ⟨hop, us, hus⟩ := decode_error_unknownOpcode h
  have hpc : s.pc.toNat < 32768 := by
    by_contra hout
    rw [fetchWords_nil (Nat.not_lt.1 hout)] at hus
    cases hus
  obtain ⟨ws, hws, -⟩ := fetchWords_cons hpc
  exact ⟨hpc, (List.cons.inj (hus.symm.trans hws)).1, hop⟩

/-- Settles O47: the cause of the fault names the word it records. -/
theorem faultInfoHoldsTheOffendingWord : Obligations.FaultInfoHoldsTheOffendingWord := by
  intro s t hs h ht
  rcases step_faulted hs h ht with ⟨i, rest, hd, hcause, -⟩ | rfl | ⟨op, hd, hl, rfl⟩
  · generalize t.faultKind = kind, t.faultInfo = info at hcause
    cases hcause with
    | operand ho =>
      obtain ⟨k, role, hfirst⟩ := fetched_firstInvalid hd ho
      exact ⟨fun _ => ⟨i, rest, k, role, hd, hfirst⟩, nofun, nofun, by simp⟩
    | wideWord hea hw hp => exact ⟨nofun, nofun, fun _ => ⟨hp, hw, _, _, _, rest, hd, hea, rfl⟩, by simp⟩
    | _ => exact ⟨nofun, nofun, nofun, fun _ => rfl⟩
  · exact ⟨nofun, nofun, nofun, fun _ => rfl⟩
  · obtain ⟨-, hread, hop⟩ := fetched_unknownOpcode hd
    exact ⟨nofun, fun _ => ⟨hl, hread, hop⟩, nofun, by simp⟩

/-! ### Turns outside Running, cancel, the run status -/

/-- The core's turn always goes on (R74). -/
theorem coreTurn_goes_on (s : State) : ∃ t, (coreTurn s).outcome = .next t := by
  cases hturn : coreTurn s with
  | run i u =>
    obtain ⟨t, hnext, -⟩ := exec_gives i u
    exact ⟨t, hnext⟩
  | done o =>
    rcases coreTurn_done hturn with ⟨-, rfl⟩ | ⟨-, -, rfl⟩ | ⟨-, -, e, -, rfl⟩
    · exact ⟨s, rfl⟩
    · exact ⟨_, rfl⟩
    · cases e with
      | noOpcodeWord | noOperandWord => exact ⟨_, rfl⟩
      | unknownOpcode op =>
        rw [Turn.outcome, onDecodeError, unknownOpcode]
        split <;> exact ⟨_, rfl⟩

theorem step_of_not_running (hr : s.requests = []) (h : s.status ≠ .running) : step s = .next s := by
  rw [step_of_no_request hr, coreTurn_of_not_running h, Turn.outcome]

/-- Settles O51: a turn of the core goes on, and outside Running it answers the state it starts in. -/
theorem everyTurnOfTheCoreGoesOn : Obligations.EveryTurnOfTheCoreGoesOn := by
  intro s
  refine ⟨fun hr => ⟨?_, step_of_not_running hr⟩, fun rs hr => ⟨?_, fun h => ?_⟩⟩
  · rw [step_of_no_request hr]
    exact coreTurn_goes_on s
  · rw [step_of_yield hr]
    exact coreTurn_goes_on _
  · rw [step_of_yield hr, coreTurn_of_not_running (s := s.setRequests rs) h]
    rfl

/-- A run whose first step goes on is a run from the next state. -/
theorem coreRun_succ {M : Host.Core} {s u : M.State} (n : Nat) (h : M.step s = .next u) :
    M.run (n + 1) s = M.run n u := by
  rw [Host.Core.run, h]

/-- Settles O52: by induction on the steps, each of which answers the same state. -/
theorem endedRunsStayAsTheyAre : Obligations.EndedRunsStayAsTheyAre := by
  intro s n hended hr
  have hstep : step s = .next s :=
    step_of_not_running hr (by rcases hended with h | h | h <;> simp [h])
  induction n with
  | zero => rfl
  | succ n ih => exact (coreRun_succ (M := core) n hstep).trans ih

/-- The run status after the core's turn: it stays, or Running ends, as Cancelled only on a request. -/
theorem CoreTurnGives.status_cases (h : CoreTurnGives s t) :
    t.status = s.status ∨ (s.status = .running ∧
      (t.status = .halted ∨ t.status = .faulted ∨ (t.status = .cancelled ∧ s.cancelRequested = true))) := by
  rcases h with ⟨-, rfl⟩ | ⟨hs, hc, rfl⟩ | ⟨hs, -, ⟨i, rest, -, hexec⟩ | ⟨e, -, herror⟩⟩
  · exact .inl rfl
  · exact .inr ⟨hs, .inr (.inr ⟨rfl, hc⟩)⟩
  · rcases (effect_of_exec hexec).status_cases with ⟨hsame, -⟩ | ⟨rfl, -⟩ | ⟨k, info, rfl, -⟩
    · exact .inl hsame
    · exact .inr ⟨hs, .inl rfl⟩
    · exact .inr ⟨hs, .inr (.inl rfl)⟩
  · rcases onDecodeError_next herror with ⟨-, rfl⟩ | ⟨op, -, ⟨-, rfl⟩ | ⟨-, rfl⟩⟩
    · exact .inr ⟨hs, .inr (.inl rfl)⟩
    · exact .inr ⟨hs, .inr (.inl rfl)⟩
    · exact .inl rfl

theorem coreTurnGives_of_step (hr : s.requests = []) (h : step s = .next t) : CoreTurnGives s t := by
  rcases step_next h with ⟨-, hgives⟩ | ⟨rs, ⟨hyield, -⟩ | hhost⟩
  · exact hgives
  · cases hr.symm.trans hyield
  · simp [HostGives, hr] at hhost

/-- Settles O53: the request is sampled first, and no other turn of the core ends Cancelled. -/
theorem cancelKeepsTheState : Obligations.CancelKeepsTheState := by
  intro s hr
  refine ⟨fun hs hc => ⟨s.setStatus .cancelled, ?_, rfl, rfl, rfl, rfl, ⟨fun _ => rfl, rfl, rfl, fun _ => rfl⟩,
    ⟨rfl, rfl⟩, rfl, rfl, rfl⟩, fun t hne h ht => ?_⟩
  · rw [step_of_no_request hr, coreTurn_of_cancel hs hc, Turn.outcome]
  · rcases (coreTurnGives_of_step hr h).status_cases with hsame | ⟨-, hend⟩
    · exact absurd (hsame.symm.trans ht) hne
    · simpa [ht] using hend

/-- What the host's transactions do to the run status. -/
theorem HostGives.status_cases {rs : List HostRequest} (h : HostGives s t rs) :
    (s.requests = .reset :: rs ∧ t.status = .idle) ∨
      (s.requests = .start :: rs ∧ s.status = .idle ∧ t.status = .running) ∨ t.status = s.status := by
  rcases h with ⟨hr, rfl⟩ | ⟨image, ws, -, -, -, -, rfl⟩ | ⟨regs, -, -, rfl⟩ | ⟨config, -, -, rfl⟩ |
    ⟨input, -, -, rfl⟩ | ⟨hr, hi, rfl⟩ | ⟨-, rfl⟩
  · exact .inl ⟨hr, rfl⟩
  · exact .inr (.inr rfl)
  · exact .inr (.inr rfl)
  · exact .inr (.inr rfl)
  · exact .inr (.inr rfl)
  · exact .inr (.inl ⟨hr, hi, rfl⟩)
  · exact .inr (.inr rfl)

/-- The run status after any step: a turn of the core in Running moves it, a reset or a start sets it, and nothing else
changes it. -/
theorem status_of_step (h : step s = .next t) :
    ((s.requests = [] ∨ ∃ rs, s.requests = .yield :: rs) ∧ s.status = .running ∧
      (t.status = .halted ∨ t.status = .faulted ∨ (t.status = .cancelled ∧ s.cancelRequested = true))) ∨
    ((∃ rs, s.requests = .reset :: rs) ∧ t.status = .idle) ∨
    ((∃ rs, s.requests = .start :: rs) ∧ s.status = .idle ∧ t.status = .running) ∨ t.status = s.status := by
  rcases step_next h with ⟨hr, hgives⟩ | ⟨rs, ⟨hr, hgives⟩ | hhost⟩
  · rcases hgives.status_cases with hsame | hend
    · exact .inr (.inr (.inr hsame))
    · exact .inl ⟨.inl hr, hend⟩
  · rcases hgives.status_cases with hsame | hend
    · exact .inr (.inr (.inr hsame))
    · exact .inl ⟨.inr ⟨rs, hr⟩, hend⟩
  · rcases hhost.status_cases with ⟨hr, ht⟩ | ⟨hr, hi, ht⟩ | hsame
    · exact .inr (.inl ⟨⟨rs, hr⟩, ht⟩)
    · exact .inr (.inr (.inl ⟨⟨rs, hr⟩, hi, ht⟩))
    · exact .inr (.inr (.inr hsame))

/-- Settles O54: each way the status can move is allowed, and names its agent. -/
theorem statusMovesAsAllowed : Obligations.StatusMovesAsAllowed := by
  intro s t h
  rcases status_of_step h with ⟨hturn, hs, hend⟩ | ⟨hreset, ht⟩ | ⟨hstart, hs, ht⟩ | hsame
  · refine ⟨.inr (.inr (.inr ⟨hs, ?_⟩)), fun _ ht => ?_, fun hi => ?_, fun _ _ => hturn, fun _ ht => ?_⟩
    · exact hend.imp_right (.imp_right And.left)
    · simp [ht] at hend
    · simp [hs] at hi
    · simpa [ht] using hend
  · simp [StatusMove, State.ended, ht, hreset]
  · simp [StatusMove, State.ended, hs, ht, hstart]
  · refine ⟨.inl hsame.symm, fun hne ht => ?_, fun hi ht => ?_, fun hs hended => ?_, fun hs ht => ?_⟩
    · exact absurd (hsame.symm.trans ht) hne
    · simp [hsame, hi] at ht
    · simp [State.ended, hsame, hs] at hended
    · simp [hsame, hs] at ht

end Sys2Proof.Machine
end

section
/-! The invariant of 10_state.md section 8: it holds at reset, and every step of host or core keeps it. -/

namespace Sys2Proof.Machine

variable {s t : State} {i : Instr}

/-! ### Updates that keep the invariant -/

/-- The invariant speaks of memory, the pc and the status registers only. -/
theorem Inv.congr (h : Inv s) (hmem : t.mem = s.mem) (hpc : t.pc = s.pc) (hsame : SameStatus s t) : Inv t := by
  obtain ⟨hstatus, hkind, hfaultPc, hinfo⟩ := hsame
  constructor <;> simp only [hmem, hpc, hstatus, hkind, hfaultPc, hinfo]
  exacts [h.memory, h.pc, h.kind, h.faultPc, h.faultZero]

theorem Inv.setRequests (h : Inv s) (rs : List HostRequest) : Inv (s.setRequests rs) :=
  h.congr rfl rfl ⟨rfl, rfl, rfl, rfl⟩

theorem Inv.setMem (h : Inv s) {m : Memory} (hm : Memory.wf m = true) : Inv (s.setMem m) :=
  ⟨hm, h.pc, h.kind, h.faultPc, h.faultZero⟩

theorem Inv.setStatus (h : Inv s) (hs : s.status ≠ .faulted) {st : RunStatus} (hst : st ≠ .faulted) :
    Inv (s.setStatus st) :=
  ⟨h.memory, h.pc, iff_of_false hst fun hk => hs (h.kind.2 hk), fun hf => absurd hf hst, fun _ => h.faultZero hs⟩

theorem Inv.recordFault (h : Inv s) {k : FaultKind} (hk : k ≠ .none) (info : Word) : Inv (s.recordFault k info) :=
  ⟨h.memory, h.pc, iff_of_true rfl hk, fun _ => rfl, fun hne => absurd rfl hne⟩

/-- A step that leaves the status registers needs only memory and the pc looked at. -/
theorem Inv.of_sameStatus (h : Inv s) (hs : s.status = .running) (hsame : SameStatus s t)
    (hmem : Memory.wf t.mem = true) (hpc : t.pc.toNat ≤ 32768) : Inv t := by
  obtain ⟨hstatus, hkind, hfaultPc, hinfo⟩ := hsame
  have hne : t.status ≠ .faulted := by simp [hstatus, hs]
  exact ⟨hmem, hpc, by rw [hstatus, hkind]; exact h.kind, fun hf => absurd hf hne,
    fun _ => by rw [hfaultPc, hinfo]; exact h.faultZero (hstatus ▸ hne)⟩

/-! ### The core -/

/-- The pc stays, advances by the length, or takes a Cell. -/
theorem Effect.pc_cases (h : Effect s i t) :
    t.pc = s.pc ∨ t.pc = s.pc + BitVec.ofNat 16 i.length ∨ ∃ g : Cell, t.pc = g.toWord := by
  cases h with
  | fault | ends | held | blocked => exact .inl rfl
  | noop | write | push | pop | store | out | read => exact .inr (.inl rfl)
  | jmp | call | ret => exact .inr (.inr ⟨_, rfl⟩)
  | jt =>
    rw [setPc_pc]
    split
    exacts [.inr (.inl rfl), .inr (.inr ⟨_, rfl⟩)]
  | jf =>
    rw [setPc_pc]
    split
    exacts [.inr (.inr ⟨_, rfl⟩), .inr (.inl rfl)]

/-- Advancing inside memory does not pass its end (R32, the spec's own D3). -/
theorem advance_toNat_le {p : BitVec 16} {n : Nat} (h : p.toNat + n ≤ 32768) :
    (p + BitVec.ofNat 16 n).toNat ≤ 32768 := by
  rw [BitVec.toNat_add, BitVec.toNat_ofNat]
  omega

theorem Effect.pc_le (h : Effect s i t) (hlen : s.pc.toNat + i.length ≤ 32768) : t.pc.toNat ≤ 32768 := by
  rcases h.pc_cases with hpc | hpc | ⟨g, hpc⟩ <;> rw [hpc]
  · omega
  · exact advance_toNat_le hlen
  · rw [Cell.toWord_toNat]
    exact Nat.le_of_lt g.isLt

theorem Effect.memory_wf (h : Effect s i t) (hm : Memory.wf s.mem = true) : Memory.wf t.mem = true := by
  rcases h.mem_cases with hsame | ⟨a, b, ea, w, -, -, hstore⟩
  · rwa [hsame]
  · rw [hstore]
    exact Memory.write_wf w (effectiveAddress_inside ea) hm

theorem Effect.inv (h : Effect s i t) (hinv : Inv s) (hs : s.status = .running)
    (hlen : s.pc.toNat + i.length ≤ 32768) : Inv t := by
  rcases h.status_cases with hsame | ⟨rfl, -⟩ | ⟨k, info, rfl, hcause⟩
  · exact hinv.of_sameStatus hs hsame (h.memory_wf hinv.memory) (h.pc_le hlen)
  · exact hinv.setStatus (by simp [hs]) (by decide)
  · exact hinv.recordFault hcause.kind_ne_none info

theorem CoreTurnGives.inv (h : CoreTurnGives s t) (hinv : Inv s) : Inv t := by
  rcases h with ⟨-, rfl⟩ | ⟨hs, -, rfl⟩ | ⟨hs, -, ⟨i, rest, hd, hexec⟩ | ⟨e, hd, herror⟩⟩
  · exact hinv
  · exact hinv.setStatus (by simp [hs]) (by decide)
  · exact (effect_of_exec hexec).inv hinv hs (fetched_length hd)
  · rcases onDecodeError_next herror with ⟨-, rfl⟩ | ⟨op, rfl, ⟨-, rfl⟩ | ⟨-, rfl⟩⟩
    · exact hinv.recordFault (by decide) 0
    · exact hinv.recordFault (by decide) op
    · refine hinv.of_sameStatus hs ⟨rfl, rfl, rfl, rfl⟩ hinv.memory (advance_toNat_le (n := 1) ?_)
      exact (fetched_unknownOpcode hd).1

/-! ### The host -/

/-- Settles O56: field by field. -/
theorem resetMeetsTheInvariant : Obligations.ResetMeetsTheInvariant :=
  ⟨rfl, Nat.zero_le _, by decide, nofun, fun _ => ⟨rfl, rfl⟩⟩

theorem serveReset_inv (s : State) : Inv (serveReset s) :=
  Inv.congr resetMeetsTheInvariant rfl rfl ⟨rfl, rfl, rfl, rfl⟩

theorem HostGives.inv {rs : List HostRequest} (h : HostGives s t rs) (hinv : Inv s) : Inv t := by
  have hrs := hinv.setRequests rs
  rcases h with ⟨-, rfl⟩ | ⟨image, ws, -, -, -, hlen, rfl⟩ | ⟨regs, -, -, rfl⟩ | ⟨config, -, -, rfl⟩ |
    ⟨input, -, -, rfl⟩ | ⟨-, hi, rfl⟩ | ⟨-, rfl⟩
  · exact serveReset_inv _
  · exact hrs.setMem (Memory.ofWords_wf ws hlen)
  · exact hrs.congr rfl rfl ⟨rfl, rfl, rfl, rfl⟩
  · exact hrs.congr rfl rfl ⟨rfl, rfl, rfl, rfl⟩
  · exact hrs.congr rfl rfl ⟨rfl, rfl, rfl, rfl⟩
  · exact hrs.setStatus (by simp [hi]) (by decide)
  · exact hrs.congr rfl rfl ⟨rfl, rfl, rfl, rfl⟩

/-- Settles O55: the core's turn keeps it, with nothing pending or on a yield, and so does each transaction. -/
theorem stepKeepsTheInvariant : Obligations.StepKeepsTheInvariant := by
  intro s t hinv h
  rcases step_next h with ⟨-, hgives⟩ | ⟨rs, ⟨-, hgives⟩ | hhost⟩
  · exact hgives.inv hinv
  · exact hgives.inv (hinv.setRequests rs)
  · exact hhost.inv hinv

end Sys2Proof.Machine
end

section
/-! The host's transactions run one by one: reset (R160), the load of an image (20_memory.md R45, R47), and the launch
(70_reset_and_hazards.md R162). -/

namespace Sys2Proof

/-! ### The byte stream of an image (R45) -/

theorem wordsOfBytes_odd (bs : List Byte) (h : bs.length % 2 = 1) : wordsOfBytes bs = none := by
  induction bs using wordsOfBytes.induct with
  | case1 => cases h
  | case2 => rfl
  | case3 lo hi bs ih => rw [wordsOfBytes, ih (by simp only [List.length_cons] at h; omega), Option.map_none]

/-- An even stream has half as many words, each of its two bytes, the low one first. -/
theorem wordsOfBytes_even (bs : List Byte) (h : bs.length % 2 = 0) :
    ∃ ws, wordsOfBytes bs = some ws ∧ 2 * ws.length = bs.length ∧
      ∀ i lo hi, bs[2 * i]? = some lo → bs[2 * i + 1]? = some hi →
        ∃ w, ws[i]? = some w ∧ w.toNat = lo.toNat + 256 * hi.toNat := by
  induction bs using wordsOfBytes.induct with
  | case1 => exact ⟨[], rfl, rfl, by simp⟩
  | case2 => cases h
  | case3 lo hi bs ih =>
    obtain ⟨ws, hws, hlen, hget⟩ := ih (by simp only [List.length_cons] at h; omega)
    refine ⟨_, by rw [wordsOfBytes, hws, Option.map_some], by simp; omega, fun i lo' hi' hlo hhi => ?_⟩
    cases i with
    | zero =>
      obtain rfl := Option.some.inj hlo
      obtain rfl := Option.some.inj hhi
      refine ⟨_, rfl, ?_⟩
      rw [BitVec.toNat_ofNat]
      omega
    | succ i => exact hget i lo' hi' hlo hhi

theorem wordsOfBytes_bytesOfWords (ws : List Word) : wordsOfBytes (bytesOfWords ws) = some ws := by
  induction ws with
  | nil => rfl
  | cons w ws ih =>
    rw [bytesOfWords, wordsOfBytes, ih, Option.map_some]
    congr 2
    apply BitVec.eq_of_toNat_eq
    simp only [BitVec.toNat_ofNat]
    omega

end Sys2Proof

namespace Sys2Proof.Machine

variable {s : State} {rs : List HostRequest}

/-! ### The step that serves each transaction -/

theorem step_of_reset (h : s.requests = .reset :: rs) : step s = .next (serveReset (s.setRequests rs)) := by
  rw [step_eq_outcome, nextTurn, h, Turn.outcome]

theorem whileIdle_idle (h : s.status = .idle) (o : Result) : whileIdle s o = o := by
  rw [whileIdle, h]

theorem step_of_load {image : List Byte} (h : s.requests = .load image :: rs) (hi : s.status = .idle) :
    step s = serveLoad image (s.setRequests rs) := by
  rw [step_eq_outcome, nextTurn, h, Turn.outcome, whileIdle_idle hi]

theorem step_of_preload {regs : Vector Cell 8} (h : s.requests = .preload regs :: rs) (hi : s.status = .idle) :
    step s = .next { s.setRequests rs with regs := regs } := by
  rw [step_eq_outcome, nextTurn, h, Turn.outcome, whileIdle_idle hi]

theorem step_of_configure {config : Config} (h : s.requests = .configure config :: rs) (hi : s.status = .idle) :
    step s = .next { s.setRequests rs with config := config } := by
  rw [step_eq_outcome, nextTurn, h, Turn.outcome, whileIdle_idle hi]

theorem step_of_attach {input : List ReadAnswer} (h : s.requests = .attach input :: rs) (hi : s.status = .idle) :
    step s = .next { s.setRequests rs with input := input, output := [] } := by
  rw [step_eq_outcome, nextTurn, h, Turn.outcome, whileIdle_idle hi]

theorem step_of_start (h : s.requests = .start :: rs) (hi : s.status = .idle) :
    step s = .next ((s.setRequests rs).setStatus .running) := by
  rw [step_eq_outcome, nextTurn, h, Turn.outcome, serveStart, setRequests_status, hi]

theorem serveLoad_of_words {image : List Byte} {ws : List Word} (s : State) (h : wordsOfBytes image = some ws)
    (hlen : ws.length ≤ 32768) : serveLoad image s = .next (s.setMem (Memory.ofWords 0 ws)) := by
  rw [serveLoad, h]
  exact if_pos hlen

theorem serveLoad_odd {image : List Byte} (s : State) (h : image.length % 2 = 1) :
    serveLoad image s = .fault .imageOddLength := by
  rw [serveLoad, wordsOfBytes_odd image h]

theorem serveLoad_tooLong {image : List Byte} {ws : List Word} (s : State) (h : wordsOfBytes image = some ws)
    (hlen : 32768 < ws.length) : serveLoad image s = .fault .imageTooLong := by
  rw [serveLoad, h]
  exact if_neg (Nat.not_le.2 hlen)

/-- Address i of a loaded image holds word i, and 0 past the image. -/
theorem read_loaded (ws : List Word) (i : Nat) : Memory.read (Memory.ofWords 0 ws) i = ws[i]?.getD 0 := by
  have hread := Memory.read_ofWords 0 ws i
  rwa [Nat.zero_add] at hread

/-! ### Reset, load, launch -/

/-- Settles O58: a reset leaves what State.reset holds of the machine and the status registers. -/
theorem resetClearsTheMachine : Obligations.ResetClearsTheMachine := by
  refine ⟨?_, fun s rs hr => ⟨_, step_of_reset hr⟩⟩
  rintro t (rfl | ⟨s, rs, hr, hstep⟩)
  · exact ⟨reset_reg, rfl, rfl, fun _ _ => rfl, rfl, rfl, rfl, rfl⟩
  · obtain rfl := Host.Outcome.next.inj ((step_of_reset hr).symm.trans hstep)
    exact ⟨reset_reg, rfl, rfl, fun _ _ => rfl, rfl, rfl, rfl, rfl⟩

/-- Settles O59: the image's words, when it has a whole number of them and not too many, are what memory reads. -/
theorem loadPlacesTheImage : Obligations.LoadPlacesTheImage := by
  intro image rs s hi hr
  rw [step_of_load hr hi]
  refine ⟨serveLoad_odd _, fun heven hlong => ?_, fun heven hfits => ?_⟩ <;>
    obtain ⟨ws, hws, hlen, hget⟩ := wordsOfBytes_even image heven
  · exact serveLoad_tooLong _ hws (by omega)
  · refine ⟨Memory.ofWords 0 ws, serveLoad_of_words _ hws (by omega), fun i lo hi hlo hhi => ?_, fun i hpast => ?_⟩
    · obtain ⟨w, hw, hvalue⟩ := hget i lo hi hlo hhi
      rw [read_loaded, hw, Option.getD_some, hvalue]
    · rw [read_loaded, List.getElem?_eq_none (by omega), Option.getD_none]

/-- Settles O60: the six transactions, served one a step. -/
theorem launchLeavesTheLaunchState : Obligations.LaunchLeavesTheLaunchState := by
  intro s ws regs cfg answers hlen hr
  refine ⟨_, (coreRun_succ (M := core) 5 (step_of_reset hr)).trans <|
    (coreRun_succ (M := core) 4 ((step_of_load rfl rfl).trans
      (serveLoad_of_words _ (wordsOfBytes_bytesOfWords ws) hlen))).trans <|
    (coreRun_succ (M := core) 3 (step_of_preload rfl rfl)).trans <|
    (coreRun_succ (M := core) 2 (step_of_configure rfl rfl)).trans <|
    (coreRun_succ (M := core) 1 (step_of_attach rfl rfl)).trans <|
    coreRun_succ (M := core) 0 (step_of_start rfl rfl), rfl, rfl, rfl, rfl, fun i => read_loaded ws i,
    rfl, rfl, rfl, rfl, rfl, rfl, rfl, rfl⟩

end Sys2Proof.Machine
end

section
/-! Reproducibility (70_reset_and_hazards.md section 4): every operation takes agreeing states to agreeing states, so
every meaning answers agreeing states and writes the same bytes, and by induction so does every run. -/

namespace Sys2Proof.Machine

variable {s t u v : State}

/-! ### Updates of agreeing states -/

theorem Agree.resolve_eq (h : Agree s u) (o : Operand) : resolve u o = resolve s o := by
  cases o with
  | literal | invalid => rfl
  | register r => simp only [resolve, State.reg, h.regs]

theorem Agree.setReg (h : Agree s u) (d : Reg) (x : Cell) : Agree (s.setReg d x) (u.setReg d x) :=
  { h with regs := by simp only [setReg_regs, h.regs] }

theorem Agree.setPc (h : Agree s u) (p : BitVec 16) : Agree (s.setPc p) (u.setPc p) :=
  { h with pc := rfl }

theorem Agree.advance (h : Agree s u) (n : Nat) : Agree (s.advance n) (u.advance n) := by
  rw [advance_eq, advance_eq, h.pc]
  exact h.setPc _

theorem Agree.setStack (h : Agree s u) (st : List Cell) : Agree (s.setStack st) (u.setStack st) :=
  { h with stack := rfl }

theorem Agree.push (h : Agree s u) (x : Cell) : Agree (s.push x) (u.push x) := by
  rw [push_eq, push_eq, h.stack]
  exact h.setStack _

theorem Agree.setMem (h : Agree s u) (m : Memory) : Agree (s.setMem m) (u.setMem m) :=
  { h with mem := rfl }

theorem Agree.setStatus (h : Agree s u) (st : RunStatus) : Agree (s.setStatus st) (u.setStatus st) :=
  { h with status := rfl }

theorem Agree.setInput (h : Agree s u) (l : List ReadAnswer) : Agree (s.setInput l) (u.setInput l) :=
  { h with input := rfl }

theorem Agree.writeChar (h : Agree s u) (x : Byte) : Agree (s.writeChar x) (u.writeChar x) :=
  { h with }

theorem Agree.recordFault (h : Agree s u) (k : FaultKind) (info : Word) :
    Agree (s.recordFault k info) (u.recordFault k info) :=
  { h with status := rfl }

/-! ### Outcomes that agree -/

/-- Both outcomes are next states, which agree and have the same bytes added to the outputs of `s` and `u`. -/
def SameStep (s u : State) (o o' : Result) : Prop :=
  ∃ t v bytes, o = .next t ∧ o' = .next v ∧ Agree t v ∧ t.output = s.output ++ bytes ∧ v.output = u.output ++ bytes

/-- Next states that have written nothing. -/
theorem Agree.sameStep (h : Agree t v) (ht : t.output = s.output) (hv : v.output = u.output) :
    SameStep s u (.next t) (.next v) :=
  ⟨t, v, [], rfl, rfl, h, by rw [ht, List.append_nil], by rw [hv, List.append_nil]⟩

section
variable (h : Agree s u)
include h

theorem raise_sameStep (k : FaultKind) (info : Word) : SameStep s u (raise k info s) (raise k info u) :=
  (h.recordFault k info).sameStep rfl rfl

theorem halt_sameStep : SameStep s u (halt s) (halt u) :=
  (h.setStatus .halted).sameStep rfl rfl

theorem withValue_sameStep (o : Operand) {k k' : Cell → Result} (hk : ∀ x, SameStep s u (k x) (k' x)) :
    SameStep s u (withValue o s k) (withValue o u k') := by
  rw [withValue, withValue, h.resolve_eq]
  cases resolve s o with
  | ok x => exact hk x
  | error w => exact raise_sameStep h _ w

theorem withDst_sameStep (o : Operand) {k k' : Reg → Result} (hk : ∀ d, SameStep s u (k d) (k' d)) :
    SameStep s u (withDst o s k) (withDst o u k') := by
  rw [withDst, withDst]
  cases regidx o with
  | ok d => exact hk d
  | error w => exact raise_sameStep h _ w

theorem writeAndAdvance_sameStep (d : Reg) (x : Cell) (n : Nat) :
    SameStep s u (writeAndAdvance d x n s) (writeAndAdvance d x n u) :=
  ((h.setReg d x).advance n).sameStep rfl rfl

theorem binaryOp_sameStep (f : Cell → Cell → Cell) (a b c : Operand) :
    SameStep s u (binaryOp f a b c s) (binaryOp f a b c u) :=
  withDst_sameStep h a fun d => withValue_sameStep h b fun x => withValue_sameStep h c fun y =>
    writeAndAdvance_sameStep h d (f x y) 4

/-! ### The meanings -/

theorem execPop_sameStep (a : Operand) : SameStep s u (execPop a s) (execPop a u) :=
  withDst_sameStep h a fun d => by
    rw [h.stack]
    cases s.stack with
    | nil => exact raise_sameStep h _ _
    | cons x st => exact ((h.setStack st).setReg d x |>.advance 2).sameStep rfl rfl

theorem execMod_sameStep (a b c : Operand) : SameStep s u (execMod a b c s) (execMod a b c u) :=
  withDst_sameStep h a fun d => withValue_sameStep h b fun x => withValue_sameStep h c fun y => by
    split
    · exact raise_sameStep h _ _
    · exact writeAndAdvance_sameStep h d _ 4

theorem rmemWord_sameStep (d : Reg) (w : Word) : SameStep s u (rmemWord d w s) (rmemWord d w u) := by
  rw [rmemWord, rmemWord, h.config]
  split
  · exact writeAndAdvance_sameStep h d _ 3
  · cases s.config.rmemWide with
    | fault => exact raise_sameStep h _ w
    | reduce => exact writeAndAdvance_sameStep h d _ 3

theorem execCall_sameStep (a : Operand) : SameStep s u (execCall a s) (execCall a u) :=
  withValue_sameStep h a fun g => by
    rw [h.pc]
    split
    · exact ((h.push _).setPc g.toWord).sameStep rfl rfl
    · exact raise_sameStep h _ _

theorem execRet_sameStep : SameStep s u (execRet s) (execRet u) := by
  rw [execRet, execRet, h.stack]
  cases s.stack with
  | nil => exact halt_sameStep h
  | cons g st => exact ((h.setStack st).setPc g.toWord).sameStep rfl rfl

theorem execInp_sameStep (a : Operand) : SameStep s u (execInp a s) (execInp a u) :=
  withDst_sameStep h a fun d => by
    rw [readChar, readChar, h.input]
    match s.input with
    | [] => exact h.sameStep rfl rfl
    | .byte x :: later => exact ((h.setInput later).setReg d (x.setWidth 15) |>.advance 2).sameStep rfl rfl
    | .blocked :: later => exact (h.setInput later).sameStep rfl rfl
    | .eof :: _ =>
      simp only [h.config]
      cases s.config.eofPolicy with
      | fault => exact raise_sameStep h _ _
      | halt => exact halt_sameStep h

theorem exec_sameStep (i : Instr) : SameStep s u (exec i s) (exec i u) := by
  cases i with
  | halt => exact halt_sameStep h
  | noop => exact (h.advance 1).sameStep rfl rfl
  | ret => exact execRet_sameStep h
  | push a => exact withValue_sameStep h a fun x => ((h.push x).advance 2).sameStep rfl rfl
  | pop a => exact execPop_sameStep h a
  | jmp a => exact withValue_sameStep h a fun g => (h.setPc g.toWord).sameStep rfl rfl
  | call a => exact execCall_sameStep h a
  | out a =>
    exact withValue_sameStep h a fun x => ⟨_, _, [_], rfl, rfl, (h.writeChar _).advance 2, rfl, rfl⟩
  | inp a => exact execInp_sameStep h a
  | jt a b | jf a b =>
    simp only [exec_jt, exec_jf, h.pc]
    exact withValue_sameStep h a fun x => withValue_sameStep h b fun g => (h.setPc _).sameStep rfl rfl
  | wmem a b =>
    exact withValue_sameStep h a fun ea => withValue_sameStep h b fun x => by
      rw [withMemWrite_inside x s _ (effectiveAddress_inside ea),
        withMemWrite_inside x u _ (effectiveAddress_inside ea), h.mem]
      exact ((h.setMem _).advance 3).sameStep rfl rfl
  | rmem a b =>
    rw [exec_rmem, exec_rmem, h.mem]
    exact withDst_sameStep h a fun d => withValue_sameStep h b fun ea => rmemWord_sameStep h d _
  | set a b | not a b =>
    exact withDst_sameStep h a fun d => withValue_sameStep h b fun x => writeAndAdvance_sameStep h d _ 3
  | mod a b c => exact execMod_sameStep h a b c
  | eq a b c | gt a b c | add a b c | mult a b c | and a b c | or a b c => exact binaryOp_sameStep h _ a b c

/-! ### The step and the run -/

theorem onDecodeError_sameStep (e : DecodeError) : SameStep s u (onDecodeError e s) (onDecodeError e u) := by
  cases e with
  | noOpcodeWord | noOperandWord => exact raise_sameStep h _ _
  | unknownOpcode op =>
    rw [onDecodeError, onDecodeError, unknownOpcode, unknownOpcode, h.config]
    split
    · exact (h.advance 1).sameStep rfl rfl
    · exact raise_sameStep h _ op

theorem coreTurn_sameStep : SameStep s u (coreTurn s).outcome (coreTurn u).outcome := by
  by_cases hs : s.status = .running
  · have hu : u.status = .running := h.status.trans hs
    cases hc : s.cancelRequested with
    | true =>
      rw [coreTurn_of_cancel hs hc, coreTurn_of_cancel hu (h.cancel.trans hc)]
      exact (h.setStatus .cancelled).sameStep rfl rfl
    | false =>
      have hfetch : fetchWords u = fetchWords s := by rw [fetchWords, fetchWords, h.mem, h.pc]
      cases hd : decode (fetchWords s) with
      | ok p =>
        rw [coreTurn_of_decode hs hc hd, coreTurn_of_decode hu (h.cancel.trans hc) (hfetch ▸ hd)]
        exact exec_sameStep h p.1
      | error e =>
        rw [coreTurn_of_error hs hc hd, coreTurn_of_error hu (h.cancel.trans hc) (hfetch ▸ hd)]
        exact onDecodeError_sameStep h e
  · rw [coreTurn_of_not_running hs, coreTurn_of_not_running (h.status.symm ▸ hs)]
    exact h.sameStep rfl rfl

end

/-- With nothing pending the core's turn leaves nothing pending. -/
theorem CoreTurnGives.requests_eq (h : CoreTurnGives s t) : t.requests = s.requests := by
  rcases h with ⟨-, rfl⟩ | ⟨-, -, rfl⟩ | ⟨-, -, ⟨i, rest, -, hexec⟩ | ⟨e, -, herror⟩⟩
  · rfl
  · rfl
  · exact (effect_of_exec hexec).sameHostSide.2.2
  · rcases onDecodeError_next herror with ⟨-, rfl⟩ | ⟨op, -, ⟨-, rfl⟩ | ⟨-, rfl⟩⟩ <;> rfl

/-- Settles O57: by induction on the steps; each is the core's turn, which agreeing states take alike. -/
theorem runsAreReproducible : Obligations.RunsAreReproducible := by
  intro n
  induction n with
  | zero =>
    intro s u t h hr hrun
    obtain rfl : s = t := Host.Outcome.next.inj hrun
    exact ⟨u, [], rfl, h, (List.append_nil _).symm, (List.append_nil _).symm⟩
  | succ n ih =>
    intro s u t h hr hrun
    have hstep := coreTurn_sameStep h
    rw [← step_of_no_request hr, ← step_of_no_request (h.requests.trans hr)] at hstep
    obtain ⟨s', u', bs, hs, hu, h', hs', hu'⟩ := hstep
    have hr' : s'.requests = [] := (coreTurnGives_of_step hr hs).requests_eq.trans hr
    obtain ⟨v, bs', hv, hagree, ht, hvout⟩ := ih s' u' t h' hr' ((coreRun_succ (M := core) n hs).symm.trans hrun)
    refine ⟨v, bs ++ bs', (coreRun_succ (M := core) n hu).trans hv, hagree, ?_, ?_⟩
    · rw [ht, hs', List.append_assoc]
    · rw [hvout, hu', List.append_assoc]

end Sys2Proof.Machine
end
